-- ==== Sys2Proof/Word.lean ====
section
/-! DEFINITION. The word types of the core: bytes, counter halves, response words and operation words
(00_scope R8, R11, R13). -/

namespace Sys2Proof

/-- The data unit of the engine: 8 bits, fixed (00_scope R11). -/
abbrev Byte := BitVec 8

/-- A counter register: `CNT_W` = 16 bits (00_scope R8). -/
abbrev Half := BitVec 16

/-- A response word: `RSP_W` = 32 bits (00_scope R13). -/
abbrev RspWord := BitVec 32

/-- An operation word: `CMD_W` = 64 bits (00_scope R13). -/
abbrev OpWord := BitVec 64

end Sys2Proof
end

