-- ==== Sys2Proof/Config.lean ====
section
/-! DEFINITION. The parameters of the core (00_scope R8 to R13) and its free values (00_scope R19):
what an implementation fixes, and what the spec leaves open. -/

namespace Sys2Proof.Config

/-- `CNT_W`, the width of `cnt_value` and `cnt_top` (00_scope R8). -/
def cntW : Nat := 16

/-- `TOP_MAX`, the largest legal `top` (00_scope R9). -/
def topMax : Nat := 2 ^ (cntW - 1) - 1

/-- `OSR_W`, the width of `osr` and `edge_cnt` (00_scope R10). -/
def osrW : Nat := 8

/-- `CMD_W`, the width of an operation word (00_scope R13). -/
def cmdW : Nat := 64

/-- `RSP_W`, the width of a response word (00_scope R13). -/
def rspW : Nat := 32

/-- `IDX_W`, the width of an index register for a capacity (00_scope R12). -/
def idxW (cap : Nat) : Nat := max 1 (Nat.clog 2 cap)

/-- `OVERRUN_POLICY`: what `rx_slot` holds after an overrun (42_duplex_engine R214,
92_eei_decisions D27). -/
inductive OverrunPolicy where
  /-- any of the 256 values: the spec's default -/
  | any
  /-- the byte not yet stored stays -/
  | keepOld
  /-- the new byte replaces it -/
  | takeNew
  deriving DecidableEq, Repr

/-- The two address spaces (10_state R49). -/
inductive Space where
  | rx
  | tx
  deriving DecidableEq, Repr

/-- The parameters a model takes as arguments (92_eei_decisions D4, D27): carried by the state and
changed by no step (log 6). -/
structure Params where
  /-- `CAP`, the capacity of each buffer in bytes (00_scope R12) -/
  cap : Nat
  /-- `OVERRUN_POLICY` (42_duplex_engine R214) -/
  overrun : OverrunPolicy
  deriving DecidableEq, Repr

/-- The spec's defaults: `CAP` = 10 and `OVERRUN_POLICY` = any. DESIGN CHOICE (log 6). -/
def defaultParams : Params := { cap := 10, overrun := .any }

/-! Free values: constants with no body, applied to a counter of draws, so that nothing in Lean can
evaluate one or prove a value of it (log 4, log 9, log 2). -/

/-- The counter half's 16-bit draws: `cnt_value` and `cnt_top` at `RST`, the data of `CNT.RD` before
configuration (10_state R61, 40_counter R156). -/
opaque counterHalf : Nat → Half

/-- The counter half's 8-bit draw: `osr` at `RST` (10_state R61). -/
opaque counterByte : Nat → Byte

/-- The counter half's 1-bit draws: `cnt_dir` at `RST`, `STAT` bit 2 before configuration
(10_state R61, 43_system_ops R250). -/
opaque counterBit : Nat → Bool

/-- The engine half's 8-bit draws: the slots at `RST`, `miso` when nothing valid is sent, `rx_slot`
after an overrun (10_state R61, 42_duplex_engine R211, R213, R214). -/
opaque engineByte : Nat → Byte

/-- What a buffer cell holds after the given number of resets until it is written
(10_state R61: "some fixed but unknown value"). -/
opaque unwrittenByte : Nat → Space → Nat → Byte

/-- Which of UTL and SEQ moves when both may (60_exceptions R290 leaves it open; log 2). -/
opaque latchFirst : Nat → Bool

end Sys2Proof.Config
end

