-- ==== Sys2Proof/Syntax.lean ====
section
/-! DEFINITION. The fifteen operations as syntax (30_encoding R106), who issues each (R103), their written
form (R110) and the pseudo-operations (R111). -/

namespace Sys2Proof

/-- The counting direction (10_state R23): 0 = DOWN, 1 = UP. -/
inductive Direction where
  | down
  | up
  deriving DecidableEq, Repr

/-- The six agents (00_scope R18). -/
inductive Agent where
  | host
  | trig
  | master
  | utl
  | seq
  | reset
  deriving DecidableEq, Repr

/-- One constructor per row of the opcode map (30_encoding R106). -/
inductive Instr where
  /-- `CNT.CFG top, init, dir, osr` (40_counter R142) -/
  | cntCfg (top init : Half) (dir : Direction) (osr : Byte)
  /-- `CNT.RD` (40_counter R156) -/
  | cntRd
  /-- `IRQ.EN` (41_toggle_latch R180) -/
  | irqEn
  /-- `OUT.SET lvl` (41_toggle_latch R182) -/
  | outSet (lvl : Bool)
  /-- `STAT.RD` (43_system_ops R250) -/
  | statRd
  /-- `TX.PUT b` (42_duplex_engine R202) -/
  | txPut (b : Byte)
  /-- `RX.GET` (42_duplex_engine R204) -/
  | rxGet
  /-- `ENG.PRELOAD` (42_duplex_engine R206) -/
  | engPreload
  /-- `ENG.EN` (42_duplex_engine R208) -/
  | engEn
  /-- `EDGE` (40_counter R147) -/
  | edge
  /-- `XCHG m` (42_duplex_engine R210) -/
  | xchg (m : Byte)
  /-- `RST` (43_system_ops R252) -/
  | rst
  /-- `UTL.SVC` (41_toggle_latch R184) -/
  | utlSvc
  /-- `ENG.RXST` (42_duplex_engine R216) -/
  | engRxst
  /-- `ENG.TXLD` (42_duplex_engine R218) -/
  | engTxld
  deriving DecidableEq, Repr

/-- The agent that issues an operation (30_encoding R106, column "issuer"). -/
def Instr.issuer : Instr → Agent
  | .cntCfg _ _ _ _ => .host
  | .cntRd => .host
  | .irqEn => .host
  | .outSet _ => .host
  | .statRd => .host
  | .txPut _ => .host
  | .rxGet => .host
  | .engPreload => .host
  | .engEn => .host
  | .edge => .trig
  | .xchg _ => .master
  | .rst => .reset
  | .utlSvc => .utl
  | .engRxst => .seq
  | .engTxld => .seq

/-- The two ways a word reaches the core (30_encoding R103): the host command port, and the inputs on
which events and internal steps are written as trace words. -/
inductive Port where
  | host
  | trace
  deriving DecidableEq, Repr

/-- The port on which an operation's word is that operation (30_encoding R103). -/
def Instr.port (i : Instr) : Port :=
  if i.issuer = .host then .host else .trace

/-- One word put to the core on one port (10_state R50; log 1). -/
structure Arrival where
  port : Port
  word : OpWord
  deriving DecidableEq, Repr

/-! The written form (30_encoding R110), numbers in decimal (log 22). -/

/-- The direction as written (30_encoding R110). -/
def Direction.written : Direction → String
  | .down => "DOWN"
  | .up => "UP"

/-- The written form of an operation: its mnemonic and operands (30_encoding R110). -/
def Instr.written : Instr → String
  | .cntCfg top init dir osr =>
    "CNT.CFG top=" ++ Nat.repr top.toNat ++ ", init=" ++ Nat.repr init.toNat ++
      ", dir=" ++ dir.written ++ ", osr=" ++ Nat.repr osr.toNat
  | .cntRd => "CNT.RD"
  | .irqEn => "IRQ.EN"
  | .outSet lvl => "OUT.SET " ++ (if lvl then "1" else "0")
  | .statRd => "STAT.RD"
  | .txPut b => "TX.PUT " ++ Nat.repr b.toNat
  | .rxGet => "RX.GET"
  | .engPreload => "ENG.PRELOAD"
  | .engEn => "ENG.EN"
  | .edge => "EDGE"
  | .xchg m => "XCHG " ++ Nat.repr m.toNat
  | .rst => "RST"
  | .utlSvc => "UTL.SVC"
  | .engRxst => "ENG.RXST"
  | .engTxld => "ENG.TXLD"

/-! The pseudo-operations, each a pure abbreviation (30_encoding R111). -/

/-- `EDGES n` (30_encoding R111). -/
def Instr.edges (n : Nat) : List Instr := List.replicate n .edge

/-- `CYCLE m` (30_encoding R111). -/
def Instr.cycle (m : Byte) : List Instr := [.xchg m, .engRxst, .engTxld]

/-- `CYCLE` for each byte the master sends, in order. -/
def Instr.cycles (ms : List Byte) : List Instr := ms.flatMap Instr.cycle

/-- `TX.FILL b0, ..., bk` (30_encoding R111). -/
def Instr.txFill (bs : List Byte) : List Instr := bs.map .txPut

/-- `PULSE` in a listing that states `osr` (30_encoding R111). -/
def Instr.pulse (osr : Byte) : List Instr := Instr.edges osr.toNat

end Sys2Proof
end

