-- ==== Sys2Proof/WellFormed.lean ====
section
/-! DEFINITION. What the syntax does not already force. Every operand's type has exactly the width of its field
(30_encoding R102), so an operation is ill formed only by the port it is put on (R103), and the
parameters only by the range of `CAP` (00_scope R12). -/

namespace Sys2Proof

/-- The operation may be put on that port (30_encoding R103): a host command on the host command port, an
event or an internal step on the trace inputs. -/
def Instr.wellFormed (p : Port) (i : Instr) : Bool := i.port == p

/-- The capacity is in its legal range, 1 to 256 (00_scope R12). -/
def Config.Params.wellFormed (p : Config.Params) : Bool := decide (1 ≤ p.cap) && decide (p.cap ≤ 256)

end Sys2Proof
end

