-- ==== Sys2Proof/Decode.lean ====
section
/-! DEFINITION. The operation encoding (30_encoding R100 to R108): the opcode map, a decoder that is total and
rejects by name, an encoder, and the byte order of an operation word and of a response word on a transport
(20_memory R74). -/

namespace Sys2Proof

/-- The four formats (30_encoding R101). -/
inductive Format where
  | N
  | I
  | L
  | C
  deriving DecidableEq, Repr

/-- Why bits spell no operation (30_encoding R107). -/
inductive DecodeError where
  /-- the opcode has no row (R107 (a), R108 (1)) -/
  | unassignedOpcode
  /-- a bit the format marks `0` is 1 (R107 (b), R108 (2)) -/
  | reservedBits
  /-- fewer bytes than a word has: eight for an operation word, four for a response word (log 21) -/
  | truncated
  deriving DecidableEq, Repr

/-- A field put at a bit position of a wider word, every other bit 0 (00_scope R15). -/
def place {n : Nat} (w k : Nat) (x : BitVec n) : BitVec w := x.setWidth w <<< k

/-! The fields (30_encoding R100 to R102). -/

/-- Bits 63:56. -/
def opcodeOf (w : OpWord) : Byte := w.extractLsb' 56 8

/-- Bits 63:60 (30_encoding R100, R103). -/
def classOf (w : OpWord) : BitVec 4 := w.extractLsb' 60 4

/-- `top`, bits 15:0. -/
def topOf (w : OpWord) : Half := w.extractLsb' 0 16

/-- `init`, bits 31:16. -/
def initOf (w : OpWord) : Half := w.extractLsb' 16 16

/-- One direction bit: 0 = DOWN, 1 = UP (30_encoding R102). -/
def Direction.ofBit (b : Bool) : Direction := if b then .up else .down

/-- The bit of a direction (30_encoding R102). -/
def Direction.toBit : Direction → Bool
  | .down => false
  | .up => true

/-- `dir`, bit 32. -/
def dirOf (w : OpWord) : Direction := Direction.ofBit (w.getLsbD 32)

/-- `osr`, bits 55:48. -/
def osrOf (w : OpWord) : Byte := w.extractLsb' 48 8

/-- `imm8`, bits 7:0. -/
def immOf (w : OpWord) : Byte := w.extractLsb' 0 8

/-- `lvl`, bit 0. -/
def lvlOf (w : OpWord) : Bool := w.getLsbD 0

/-- All bits the format marks `0` are 0 (30_encoding R101). -/
def Format.zerosClear (f : Format) (w : OpWord) : Bool :=
  match f with
  | .N => w.extractLsb' 0 56 == 0
  | .I => w.extractLsb' 8 48 == 0
  | .L => w.extractLsb' 1 55 == 0
  | .C => w.extractLsb' 33 15 == 0

/-- One row of the opcode map (30_encoding R106). -/
structure OpcodeRow where
  opcode : Byte
  mnemonic : String
  format : Format
  pattern : OpWord
  mask : OpWord
  issuer : Agent
  build : OpWord → Instr

/-- The rows of class 0x0 (30_encoding R106). -/
def counterRows : List OpcodeRow :=
  [ ⟨0x01, "CNT.CFG", .C, 0x0100000000000000, 0xFF00FFFE00000000, .host,
      fun w => .cntCfg (topOf w) (initOf w) (dirOf w) (osrOf w)⟩,
    ⟨0x02, "CNT.RD", .N, 0x0200000000000000, 0xFFFFFFFFFFFFFFFF, .host, fun _ => .cntRd⟩,
    ⟨0x03, "IRQ.EN", .N, 0x0300000000000000, 0xFFFFFFFFFFFFFFFF, .host, fun _ => .irqEn⟩,
    ⟨0x04, "OUT.SET", .L, 0x0400000000000000, 0xFFFFFFFFFFFFFFFE, .host, fun w => .outSet (lvlOf w)⟩,
    ⟨0x05, "STAT.RD", .N, 0x0500000000000000, 0xFFFFFFFFFFFFFFFF, .host, fun _ => .statRd⟩ ]

/-- The rows of class 0x1 (30_encoding R106). -/
def engineRows : List OpcodeRow :=
  [ ⟨0x10, "TX.PUT", .I, 0x1000000000000000, 0xFFFFFFFFFFFFFF00, .host, fun w => .txPut (immOf w)⟩,
    ⟨0x11, "RX.GET", .N, 0x1100000000000000, 0xFFFFFFFFFFFFFFFF, .host, fun _ => .rxGet⟩,
    ⟨0x12, "ENG.PRELOAD", .N, 0x1200000000000000, 0xFFFFFFFFFFFFFFFF, .host, fun _ => .engPreload⟩,
    ⟨0x13, "ENG.EN", .N, 0x1300000000000000, 0xFFFFFFFFFFFFFFFF, .host, fun _ => .engEn⟩ ]

/-- The rows of class 0x8 (30_encoding R106). -/
def eventRows : List OpcodeRow :=
  [ ⟨0x80, "EDGE", .N, 0x8000000000000000, 0xFFFFFFFFFFFFFFFF, .trig, fun _ => .edge⟩,
    ⟨0x81, "XCHG", .I, 0x8100000000000000, 0xFFFFFFFFFFFFFF00, .master, fun w => .xchg (immOf w)⟩,
    ⟨0x82, "RST", .N, 0x8200000000000000, 0xFFFFFFFFFFFFFFFF, .reset, fun _ => .rst⟩ ]

/-- The rows of class 0xF (30_encoding R106). -/
def internalRows : List OpcodeRow :=
  [ ⟨0xF0, "UTL.SVC", .N, 0xF000000000000000, 0xFFFFFFFFFFFFFFFF, .utl, fun _ => .utlSvc⟩,
    ⟨0xF1, "ENG.RXST", .N, 0xF100000000000000, 0xFFFFFFFFFFFFFFFF, .seq, fun _ => .engRxst⟩,
    ⟨0xF2, "ENG.TXLD", .N, 0xF200000000000000, 0xFFFFFFFFFFFFFFFF, .seq, fun _ => .engTxld⟩ ]

/-- The opcode map (30_encoding R106). -/
def opcodeTable : List OpcodeRow := counterRows ++ engineRows ++ eventRows ++ internalRows

/-- A word selects a row when `w & mask = match` (30_encoding R106). -/
def OpcodeRow.selects (r : OpcodeRow) (w : OpWord) : Bool := w &&& r.mask == r.pattern

/-- The row of an opcode (30_encoding R108 step 1). -/
def rowOf (op : Byte) : Option OpcodeRow := opcodeTable.find? (fun r => r.opcode == op)

/-- The operation a word spells, in the decode order of 30_encoding R108: first the row by its opcode, then the
format's zero bits. -/
def decode (w : OpWord) : Except DecodeError Instr :=
  match rowOf (opcodeOf w) with
  | none => .error .unassignedOpcode
  | some r => if r.format.zerosClear w then .ok (r.build w) else .error .reservedBits

/-! The encoder, from the same tables. -/

/-- The opcode of an operation (30_encoding R106). -/
def Instr.opcode : Instr → Byte
  | .cntCfg _ _ _ _ => 0x01
  | .cntRd => 0x02
  | .irqEn => 0x03
  | .outSet _ => 0x04
  | .statRd => 0x05
  | .txPut _ => 0x10
  | .rxGet => 0x11
  | .engPreload => 0x12
  | .engEn => 0x13
  | .edge => 0x80
  | .xchg _ => 0x81
  | .rst => 0x82
  | .utlSvc => 0xF0
  | .engRxst => 0xF1
  | .engTxld => 0xF2

/-- Format N (30_encoding R101). -/
def encodeN (op : Byte) : OpWord := place 64 56 op

/-- Format I (30_encoding R101). -/
def encodeI (op imm : Byte) : OpWord := place 64 56 op ||| place 64 0 imm

/-- Format L (30_encoding R101). -/
def encodeL (op : Byte) (lvl : Bool) : OpWord := place 64 56 op ||| place 64 0 (BitVec.ofBool lvl)

/-- Format C (30_encoding R101). -/
def encodeC (op osr : Byte) (dir : Direction) (init top : Half) : OpWord :=
  place 64 56 op ||| place 64 48 osr ||| place 64 32 (BitVec.ofBool dir.toBit) ||| place 64 16 init ||| place 64 0 top

/-- The word of an operation (30_encoding R101, R106). -/
def encode (i : Instr) : OpWord :=
  match i with
  | .cntCfg top init dir osr => encodeC i.opcode osr dir init top
  | .cntRd => encodeN i.opcode
  | .irqEn => encodeN i.opcode
  | .outSet lvl => encodeL i.opcode lvl
  | .statRd => encodeN i.opcode
  | .txPut b => encodeI i.opcode b
  | .rxGet => encodeN i.opcode
  | .engPreload => encodeN i.opcode
  | .engEn => encodeN i.opcode
  | .edge => encodeN i.opcode
  | .xchg m => encodeI i.opcode m
  | .rst => encodeN i.opcode
  | .utlSvc => encodeN i.opcode
  | .engRxst => encodeN i.opcode
  | .engTxld => encodeN i.opcode

/-! Words as bytes on a transport, least significant byte first (20_memory R74). -/

/-- The eight bytes of a word, in the order they are sent (20_memory R74). -/
def bytesOfWord (w : OpWord) : List Byte :=
  [w.extractLsb' 0 8, w.extractLsb' 8 8, w.extractLsb' 16 8, w.extractLsb' 24 8,
   w.extractLsb' 32 8, w.extractLsb' 40 8, w.extractLsb' 48 8, w.extractLsb' 56 8]

/-- The word of eight bytes, the first least significant (20_memory R74). -/
def wordOfBytes (b0 b1 b2 b3 b4 b5 b6 b7 : Byte) : OpWord :=
  place 64 0 b0 ||| place 64 8 b1 ||| place 64 16 b2 ||| place 64 24 b3 |||
  place 64 32 b4 ||| place 64 40 b5 ||| place 64 48 b6 ||| place 64 56 b7

/-- The bytes of an operation, in the order they are sent. -/
def encodeBytes (i : Instr) : List Byte := bytesOfWord (encode i)

/-- The operation that begins a list of bytes and the bytes after it; total on any bytes. -/
def decodeBytes : List Byte → Except DecodeError (Instr × List Byte)
  | b0 :: b1 :: b2 :: b3 :: b4 :: b5 :: b6 :: b7 :: rest =>
    (decode (wordOfBytes b0 b1 b2 b3 b4 b5 b6 b7)).map (fun i => (i, rest))
  | _ => .error .truncated

/-- The four bytes of a response word, in the order they are sent (20_memory R74). -/
def bytesOfResponse (r : RspWord) : List Byte :=
  [r.extractLsb' 0 8, r.extractLsb' 8 8, r.extractLsb' 16 8, r.extractLsb' 24 8]

/-- The response word of four bytes, the first least significant (20_memory R74). -/
def responseOfBytes (b0 b1 b2 b3 : Byte) : RspWord :=
  place 32 0 b0 ||| place 32 8 b1 ||| place 32 16 b2 ||| place 32 24 b3

/-- The response word that begins a list of bytes and the bytes after it, total on any bytes: every 32-bit word is read,
since R74 speaks of the word and not of its fields. -/
def readResponse : List Byte → Except DecodeError (RspWord × List Byte)
  | b0 :: b1 :: b2 :: b3 :: rest => .ok (responseOfBytes b0 b1 b2 b3, rest)
  | _ => .error .truncated

/-! What the host asks of the decoder. -/

/-- The word whose bits are `w` below `nbits` and 0 above. -/
def tableWord (nbits w : Nat) : OpWord := BitVec.ofNat 64 (w % 2 ^ nbits)

/-- The operation the decoder reads from the transport's bytes of a table word. -/
def decodeTableWord (nbits w : Nat) : Option Instr :=
  match decodeBytes (bytesOfWord (tableWord nbits w)) with
  | .ok (i, _) => some i
  | .error _ => none

/-- The arrival that puts a word to the core: class 0x8 and 0xF words are trace words, every other word goes
to the host command port (30_encoding R103). -/
def arrivalOfWord (w : OpWord) : Arrival :=
  if classOf w == 0x8 || classOf w == 0xF then ⟨.trace, w⟩ else ⟨.host, w⟩

/-- The arrival that spells an operation on the port of its issuer (30_encoding R103). -/
def Instr.arrival (i : Instr) : Arrival := ⟨i.port, encode i⟩

end Sys2Proof
end

