-- ==== Sys2Proof/Machine/State.lean ====
section
/-! DEFINITION. The whole architectural state of the core (10_state R20), in its two independent halves (00_scope R3),
with what the model keeps beside it (inputs, output, parameters, draw counters), and the reset state
(10_state R60, R61). Plain data throughout. -/

namespace Sys2Proof.Machine

/-- Why the machine stops in a schedule: the schedule asks for an internal step where the step does not
exist (93_implementation_defined U15; log 5). All safe: no false claim can rest on a stop. -/
inductive Fault where
  /-- raised by `UTL.SVC` while `uf_pending & uf_ien` is 0 (41_toggle_latch R184); safe -/
  | noUnderflowRequest
  /-- raised by `ENG.RXST` while the sequencer is not in WAIT_RX with `rx_full` = 1 (42_duplex_engine R216); safe -/
  | receiveBlocked
  /-- raised by `ENG.TXLD` while the sequencer is not in WAIT_TX with `tx_full` = 0 (42_duplex_engine R218); safe -/
  | transmitBlocked
  deriving DecidableEq, Repr

/-- Why a word has no meaning. Safe. -/
inductive Refusal where
  /-- an operation the model leaves out, by its mnemonic; raised by `exec` alone (by no arm now); safe -/
  | notModelled (mnemonic : String)
  /-- raised by the delivery of a trace word that spells no event: the schedule is not a trace of the core
  (30_encoding R107, 93_implementation_defined U14; log 11); safe -/
  | notATraceWord
  deriving DecidableEq, Repr

/-- The position in the engine's steady-state loop (10_state R44): 0 = WAIT_RX, 1 = WAIT_TX. -/
inductive Phase where
  | waitRx
  | waitTx
  deriving DecidableEq, Repr

/-- A buffer's cells: address and byte, addresses strictly rising. A cell that is not listed has not been
written since reset. -/
abbrev Memory := List Host.Cell

/-- What the last step put out at the boundary (10_state R47; log 3). -/
inductive Output where
  /-- nothing (30_encoding R104: events and internal steps answer nothing) -/
  | silent
  /-- the response word of a host command (30_encoding R104) -/
  | response (word : RspWord)
  /-- the byte the master receives in an exchange cycle (42_duplex_engine R212) -/
  | miso (byte : Byte)
  deriving DecidableEq, Repr

/-- The counter half: pulse discriminator, threshold event counter and toggle latch (00_scope R2). -/
structure CounterHalf where
  /-- the live counter value (10_state R21) -/
  cntValue : Half
  /-- the reload ceiling (10_state R22) -/
  cntTop : Half
  /-- the counting direction (10_state R23) -/
  cntDir : Direction
  /-- the oversampling ratio (10_state R24) -/
  osr : Byte
  /-- raw edges since the last logical pulse (10_state R25) -/
  edgeCnt : Byte
  /-- after the one successful `CNT.CFG` (10_state R26) -/
  configured : Bool
  /-- after a `CNT.CFG` refused for a range error (10_state R27) -/
  cfgErr : Bool
  /-- the underflow interrupt flag (10_state R29) -/
  ufPending : Bool
  /-- the underflow interrupt enable (10_state R30) -/
  ufIen : Bool
  /-- the level of the output line (10_state R31) -/
  outLevel : Bool
  /-- the model's own: how many free values this half has drawn (log 4) -/
  draws : Nat
  deriving DecidableEq, Repr

/-- The engine half: the duplex byte exchange engine (00_scope R2). -/
structure EngineHalf where
  /-- the inbound buffer (10_state R33) -/
  rxBuf : Memory
  /-- the outbound buffer (10_state R34) -/
  txBuf : Memory
  /-- inbound write index (10_state R35) -/
  rxWr : Nat
  /-- inbound read index (10_state R36) -/
  rxRd : Nat
  /-- outbound write index (10_state R37) -/
  txWr : Nat
  /-- outbound read index (10_state R38) -/
  txRd : Nat
  /-- the byte most recently received (10_state R39) -/
  rxSlot : Byte
  /-- receive complete (10_state R40) -/
  rxFull : Bool
  /-- the transmit-ready slot (10_state R41) -/
  txSlot : Byte
  /-- the transmit slot is not free (10_state R42) -/
  txFull : Bool
  /-- the engine takes part in exchanges (10_state R43) -/
  engEn : Bool
  /-- the sequencer's position (10_state R44) -/
  engPhase : Phase
  /-- the model's own: how many free values this half has drawn (log 4) -/
  draws : Nat
  /-- the model's own: how many resets the buffers have seen (log 9) -/
  fill : Nat
  deriving DecidableEq, Repr

/-- The state of the model: the core's two halves, its parameters, and the model's record of the boundary. -/
structure State where
  /-- the parameters; no step changes them (log 6) -/
  params : Config.Params
  /-- the counter half -/
  cnt : CounterHalf
  /-- the engine half -/
  eng : EngineHalf
  /-- the model's own: what the last step put out (log 3) -/
  output : Output
  /-- the model's own: the words put to the core and not yet taken, in order (log 1) -/
  inputs : List Arrival
  /-- the model's own: how many steps UTL and SEQ took by themselves (log 2) -/
  turn : Nat
  deriving DecidableEq, Repr

/-- The counter half right after reset (10_state R60). The four counter registers are unspecified by R61;
DESIGN CHOICE: 0, DOWN (log 7). -/
def CounterHalf.reset : CounterHalf :=
  { cntValue := 0, cntTop := 0, cntDir := .down, osr := 0, edgeCnt := 0,
    configured := false, cfgErr := false, ufPending := false, ufIen := false, outLevel := false,
    draws := 0 }

/-- The engine half right after reset (10_state R60), for a capacity: `tx_rd` starts at `1 mod CAP`
(10_state R38). The slots are unspecified by R61; DESIGN CHOICE: 0 (log 8). No buffer cell is listed (log 9). -/
def EngineHalf.reset (cap : Nat) : EngineHalf :=
  { rxBuf := [], txBuf := [], rxWr := 0, rxRd := 0, txWr := 0, txRd := 1 % cap,
    rxSlot := 0, rxFull := false, txSlot := 0, txFull := false, engEn := false, engPhase := .waitRx,
    draws := 0, fill := 0 }

/-- The state right after reset of a core with the given parameters. -/
def State.resetWith (p : Config.Params) : State :=
  { params := p, cnt := CounterHalf.reset, eng := EngineHalf.reset p.cap, output := .silent, inputs := [], turn := 0 }

/-- The state right after reset of a core with the spec's default parameters (10_state R60, R61). -/
def State.reset : State := State.resetWith Config.defaultParams

end Sys2Proof.Machine
end

