-- ==== Sys2Proof/Machine/Operands.lean ====
section
/-! DEFINITION. The operand forms: the range check of a configuration (40_counter R143) and the two addressing modes of
the buffers (20_memory R71). -/

namespace Sys2Proof.Machine

/-- `legal_cfg(top, init, osr)` (40_counter R143): the patterns are read as two's complement (00_scope R15). -/
def legalCfg (top init : Half) (osr : Byte) : Bool :=
  decide (0 ≤ top.toInt) && decide (0 ≤ init.toInt) && decide (init.toInt ≤ top.toInt) && decide (1 ≤ osr.toNat)

/-- Post-increment modulo `CAP` (20_memory R71 (a), R72). -/
def advance (cap i : Nat) : Nat := (i + 1) % cap

/-- The fixed index of `ENG.PRELOAD` (20_memory R71 (b)). -/
def preloadIndex : Nat := 0

end Sys2Proof.Machine
end

