-- ==== Sys2Proof/Machine/Flags.lean ====
section
/-! DEFINITION. What is computed from the flags: the request line, the guards of the internal steps, the
configuration state, the status word and the response word. -/

namespace Sys2Proof.Machine

/-- The request line `irq = uf_pending & uf_ien`, combinational (10_state R32). -/
def CounterHalf.irq (c : CounterHalf) : Bool := c.ufPending && c.ufIen

/-- The output line `out` (10_state R47 (a)). -/
def State.outLine (s : State) : Bool := s.cnt.outLevel

/-- The output line `irq` (10_state R47 (b)). -/
def State.irqLine (s : State) : Bool := s.cnt.irq

/-- The guard of `UTL.SVC` (41_toggle_latch R184): `irq` = 1. -/
def utlGuard (c : CounterHalf) : Bool := c.irq

/-- The guard of `ENG.RXST` (42_duplex_engine R216). -/
def rxstGuard (e : EngineHalf) : Bool := e.engPhase == .waitRx && e.rxFull

/-- The guard of `ENG.TXLD` (42_duplex_engine R218). -/
def txldGuard (e : EngineHalf) : Bool := e.engPhase == .waitTx && !e.txFull

/-- The configuration state of the counter half (10_state R28). -/
inductive CfgState where
  | unconf
  | armed
  | cfgErr
  deriving DecidableEq, Repr

/-- The configuration state as the pair (`configured`, `cfg_err`) gives it; (1,1) is unreachable and has none
(10_state R28). -/
def CounterHalf.cfgState (c : CounterHalf) : Option CfgState :=
  match c.configured, c.cfgErr with
  | false, false => some .unconf
  | true, false => some .armed
  | false, true => some .cfgErr
  | true, true => none

/-- The bit of a phase (10_state R44). -/
def Phase.toBit : Phase → Bool
  | .waitRx => false
  | .waitTx => true

/-- An `EDGE` in this state is the `osr`-th: one logical pulse (40_counter R148). -/
def CounterHalf.pulseDue (c : CounterHalf) : Bool :=
  c.configured && !decide (c.edgeCnt.toNat + 1 < c.osr.toNat)

/-- An `EDGE` in this state crosses below zero: an UnderflowEvent (40_counter R149, R153). -/
def CounterHalf.underflowDue (c : CounterHalf) : Bool :=
  c.pulseDue && c.cntDir == .down && c.cntValue == 0

/-- One bit of the status word. -/
def statBit (k : Nat) (b : Bool) : Half := place 16 k (BitVec.ofBool b)

/-- The status word (10_state R48, 43_system_ops R250); bits 7 and 15:12 are reserved and read 0. The bit shown as
DIR is an argument, because it is unspecified before configuration. -/
def statWord (dir : Bool) (c : CounterHalf) (e : EngineHalf) : Half :=
  statBit 0 c.configured ||| statBit 1 c.cfgErr ||| statBit 2 dir ||| statBit 3 c.ufPending |||
  statBit 4 c.ufIen ||| statBit 5 c.irq ||| statBit 6 c.outLevel ||| statBit 8 e.engEn |||
  statBit 9 e.engPhase.toBit ||| statBit 10 e.rxFull ||| statBit 11 e.txFull

/-- The status codes that are ever returned (60_exceptions R271). -/
inductive Status where
  | ok
  | cfgRange
  | cfgRepeat
  | badState
  | illegal
  deriving DecidableEq, Repr

/-- The code of a status (60_exceptions R271). -/
def Status.code : Status → Byte
  | .ok => 0x00
  | .cfgRange => 0x01
  | .cfgRepeat => 0x02
  | .badState => 0x03
  | .illegal => 0x04

/-- The response word: status 31:24, zero 23:16, data 15:0 (30_encoding R104). -/
def responseWord (st : Status) (data : Half) : RspWord := place 32 24 st.code ||| place 32 0 data

/-- The name of a status in a written trace (30_encoding R110). -/
def Status.written : Status → String
  | .ok => "OK"
  | .cfgRange => "CFG_RANGE"
  | .cfgRepeat => "CFG_REPEAT"
  | .badState => "BAD_STATE"
  | .illegal => "ILLEGAL"

end Sys2Proof.Machine
end

