-- ==== Sys2Proof/Machine/Ops.lean ====
section
/-! DEFINITION. The named operations that the meanings share: byte memory, post-incremented accesses, answers and
refusals, the logical pulse, the underflow event, its service (the exception entry of this core), the
exchange and reset. -/

namespace Sys2Proof.Machine

/-- What a step gives. -/
abbrev Result := Host.Outcome State Fault Refusal

/-! Byte memory in canonical form. -/

/-- What an unlisted address reads as: no value, the cell has not been written since reset (log 9). -/
def Memory.unlisted : Option Byte := none

/-- The byte written at an index since reset. -/
def Memory.read : Memory → Nat → Option Byte
  | [], _ => Memory.unlisted
  | (a, b) :: m, i => if a = i then some b else Memory.read m i

/-- Write one byte at an index, keeping the addresses strictly rising. -/
def Memory.write : Memory → Nat → Byte → Memory
  | [], i, v => [(i, v)]
  | (a, b) :: m, i, v =>
    if i < a then (i, v) :: (a, b) :: m
    else if i = a then (i, v) :: m
    else (a, b) :: Memory.write m i v

/-- The canonical form: addresses strictly rising. (An entry never equals what an unlisted address reads as,
since that is no value.) -/
def Memory.wf : Memory → Bool
  | [] => true
  | (a, _) :: m => m.all (fun c => decide (a < c.1)) && Memory.wf m

/-- Every listed cell lies in the space `0 .. CAP-1` (20_memory R78). -/
def Memory.within (cap : Nat) (m : Memory) : Bool := m.all (fun c => decide (c.1 < cap))

/-- The storage of a space (10_state R33, R34). -/
def EngineHalf.buf (e : EngineHalf) : Config.Space → Memory
  | .rx => e.rxBuf
  | .tx => e.txBuf

/-- `MemRead(space, i, 1)` (00_scope R16): the byte last written, or the unspecified byte the cell has held
since reset (20_memory R73, 10_state R61; log 9). -/
def EngineHalf.memRead (e : EngineHalf) (sp : Config.Space) (i : Nat) : Byte :=
  ((e.buf sp).read i).getD (Config.unwrittenByte e.fill sp i)

/-- `MemWrite(space, i, 1, v)` (00_scope R16). -/
def EngineHalf.memWrite (e : EngineHalf) (sp : Config.Space) (i : Nat) (v : Byte) : EngineHalf :=
  match sp with
  | .rx => { e with rxBuf := e.rxBuf.write i v }
  | .tx => { e with txBuf := e.txBuf.write i v }

/-! The four accesses with post-increment (20_memory R71, R75). -/

/-- The access of `TX.PUT`: store at `tx_wr`, then advance it. -/
def EngineHalf.putTx (cap : Nat) (b : Byte) (e : EngineHalf) : EngineHalf :=
  { e.memWrite .tx e.txWr b with txWr := advance cap e.txWr }

/-- The access of `RX.GET`: advance `rx_rd` past the byte read. -/
def EngineHalf.passRx (cap : Nat) (e : EngineHalf) : EngineHalf :=
  { e with rxRd := advance cap e.rxRd }

/-- The access of `ENG.RXST`: store `rx_slot` at `rx_wr`, then advance it. -/
def EngineHalf.storeRx (cap : Nat) (e : EngineHalf) : EngineHalf :=
  { e.memWrite .rx e.rxWr e.rxSlot with rxWr := advance cap e.rxWr }

/-- The access of `ENG.TXLD`: load the transmit slot from `tx_rd`, then advance it. -/
def EngineHalf.loadTx (cap : Nat) (e : EngineHalf) : EngineHalf :=
  { e with txSlot := e.memRead .tx e.txRd, txFull := true, txRd := advance cap e.txRd }

/-- The access of `ENG.PRELOAD`: load the transmit slot from the fixed index, no index changes
(42_duplex_engine R206, R207). -/
def EngineHalf.preloadTx (e : EngineHalf) : EngineHalf :=
  { e with txSlot := e.memRead .tx preloadIndex, txFull := true }

/-! Answers. -/

/-- Answer a host command (00_scope R16 `respond`). -/
def respond (st : Status) (data : Half) (s : State) : State :=
  { s with output := .response (responseWord st data) }

/-- Refuse a host command: answer with the code and data 0, change nothing (00_scope R16 `refuse`,
60_exceptions R270). -/
def refuse (st : Status) (s : State) : Result := .next (respond st 0 s)

/-- A step that answers nothing (30_encoding R104). -/
def silent (s : State) : State := { s with output := .silent }

/-- `emit miso(v)` (00_scope R16). -/
def emitMiso (v : Byte) (s : State) : State := { s with output := .miso v }

/-! The counter (40_counter R147). -/

/-- The UnderflowEvent: its whole effect (40_counter R153). -/
def CounterHalf.underflowEvent (c : CounterHalf) : CounterHalf := { c with ufPending := true }

/-- One logical pulse (40_counter R149 to R152). -/
def CounterHalf.logicalPulse (c : CounterHalf) : CounterHalf :=
  match c.cntDir with
  | .down =>
    if c.cntValue = 0 then CounterHalf.underflowEvent { c with cntValue := c.cntTop }
    else { c with cntValue := c.cntValue - 1 }
  | .up =>
    if c.cntValue = c.cntTop then { c with cntValue := 0 }
    else { c with cntValue := c.cntValue + 1 }

/-- One raw edge (40_counter R147, R148, R155). -/
def CounterHalf.rawEdge (c : CounterHalf) : CounterHalf :=
  if c.configured then
    if c.edgeCnt.toNat + 1 < c.osr.toNat then { c with edgeCnt := c.edgeCnt + 1 }
    else CounterHalf.logicalPulse { c with edgeCnt := 0 }
  else c

/-! The exception of this core. -/

/-- Taking the underflow exception (60_exceptions R285, 41_toggle_latch R184, R185): acknowledge and toggle in
one step. It saves nothing, changes no mode and goes nowhere; there is no return operation (60_exceptions R286). -/
def CounterHalf.takeUnderflowService (c : CounterHalf) : CounterHalf :=
  { c with ufPending := false, outLevel := !c.outLevel }

/-! The exchange (42_duplex_engine R210). -/

/-- `miso` of an exchange in this state (42_duplex_engine R212): the slot, or a free value. -/
def EngineHalf.misoByte (e : EngineHalf) : Byte :=
  if e.engEn && e.txFull then e.txSlot else Config.engineByte e.draws

/-- What `rx_slot` holds after an exchange that meets `rx_full` = 1 (42_duplex_engine R214). -/
def EngineHalf.overrunByte (p : Config.OverrunPolicy) (m : Byte) (e : EngineHalf) : Byte :=
  match p with
  | .any => Config.engineByte (e.draws + 1)
  | .keepOld => e.rxSlot
  | .takeNew => m

/-- The exchange of an enabled engine: both halves use the state before the step (42_duplex_engine R210). -/
def EngineHalf.exchange (p : Config.OverrunPolicy) (m : Byte) (e : EngineHalf) : EngineHalf :=
  { e with
    txFull := false
    rxSlot := if e.rxFull then e.overrunByte p m else m
    rxFull := true
    draws := e.draws + 2 }

/-- The exchange of a disabled engine: nothing changes but the count of draws (42_duplex_engine R211). -/
def EngineHalf.exchangeIgnored (e : EngineHalf) : EngineHalf := { e with draws := e.draws + 1 }

/-! Reset (43_system_ops R252). -/

/-- `RST` on the counter half (10_state R60, R61): the four registers of R61 are fresh draws. -/
def CounterHalf.afterRst (c : CounterHalf) : CounterHalf :=
  { cntValue := Config.counterHalf c.draws
    cntTop := Config.counterHalf (c.draws + 1)
    cntDir := Direction.ofBit (Config.counterBit (c.draws + 2))
    osr := Config.counterByte (c.draws + 3)
    edgeCnt := 0, configured := false, cfgErr := false
    ufPending := false, ufIen := false, outLevel := false
    draws := c.draws + 4 }

/-- `RST` on the engine half (10_state R60, R61): the slots are fresh draws, and every cell holds the
unspecified byte of the next filling. -/
def EngineHalf.afterRst (cap : Nat) (e : EngineHalf) : EngineHalf :=
  { rxBuf := [], txBuf := [], rxWr := 0, rxRd := 0, txWr := 0, txRd := 1 % cap
    rxSlot := Config.engineByte e.draws, rxFull := false
    txSlot := Config.engineByte (e.draws + 1), txFull := false
    engEn := false, engPhase := .waitRx
    draws := e.draws + 2, fill := e.fill + 1 }

end Sys2Proof.Machine
end

