-- ==== Sys2Proof/Machine/Counter.lean ====
section
/-! DEFINITION. The meanings of the pulse discriminator and the threshold event counter (40_counter): `CNT.CFG`, `EDGE`,
`CNT.RD`. -/

namespace Sys2Proof.Machine

/-- `CNT.CFG` (40_counter R142): the state check before the range check (60_exceptions R272). -/
def execCntCfg (top init : Half) (dir : Direction) (osr : Byte) (s : State) : Result :=
  if s.cnt.configured || s.cnt.cfgErr then refuse .cfgRepeat s
  else if legalCfg top init osr then
    .next (respond .ok 0
      { s with cnt :=
        { s.cnt with
          cntTop := top, cntValue := init, cntDir := dir, osr := osr, edgeCnt := 0, configured := true } })
  else .next (respond .cfgRange 0 { s with cnt := { s.cnt with cfgErr := true } })

/-- `CNT.RD` (40_counter R156): before configuration the data is a free value. -/
def execCntRd (s : State) : Result :=
  if s.cnt.configured then .next (respond .ok s.cnt.cntValue s)
  else
    .next (respond .ok (Config.counterHalf s.cnt.draws)
      { s with cnt := { s.cnt with draws := s.cnt.draws + 1 } })

/-- `EDGE` (40_counter R147). -/
def execEdge (s : State) : Result := .next (silent { s with cnt := s.cnt.rawEdge })

end Sys2Proof.Machine
end

