-- ==== Sys2Proof/Machine/Engine.lean ====
section
/-! DEFINITION. The meanings of the duplex byte exchange engine (42_duplex_engine): `TX.PUT`, `RX.GET`, `ENG.PRELOAD`,
`ENG.EN`, `XCHG`, `ENG.RXST`, `ENG.TXLD`. -/

namespace Sys2Proof.Machine

/-- `TX.PUT` (42_duplex_engine R202). -/
def execTxPut (b : Byte) (s : State) : Result :=
  if s.eng.engEn then refuse .badState s
  else .next (respond .ok 0 { s with eng := s.eng.putTx s.params.cap b })

/-- `RX.GET` (42_duplex_engine R204): the byte, zero-extended. -/
def execRxGet (s : State) : Result :=
  .next (respond .ok ((s.eng.memRead .rx s.eng.rxRd).zeroExtend 16)
    { s with eng := s.eng.passRx s.params.cap })

/-- `ENG.PRELOAD` (42_duplex_engine R206). -/
def execEngPreload (s : State) : Result :=
  if s.eng.engEn then refuse .badState s
  else .next (respond .ok 0 { s with eng := s.eng.preloadTx })

/-- `ENG.EN` (42_duplex_engine R208). -/
def execEngEn (s : State) : Result :=
  if s.eng.engEn then refuse .badState s
  else .next (respond .ok 0 { s with eng := { s.eng with engEn := true } })

/-- `XCHG` (42_duplex_engine R210, R211). -/
def execXchg (m : Byte) (s : State) : Result :=
  if s.eng.engEn then
    .next (emitMiso s.eng.misoByte { s with eng := s.eng.exchange s.params.overrun m })
  else .next (emitMiso s.eng.misoByte { s with eng := s.eng.exchangeIgnored })

/-- `ENG.RXST` (42_duplex_engine R216): where its guard is false the step does not exist (log 5). -/
def execEngRxst (s : State) : Result :=
  if rxstGuard s.eng then
    .next (silent
      { s with eng := { s.eng.storeRx s.params.cap with rxFull := false, engPhase := .waitTx } })
  else .fault .receiveBlocked

/-- `ENG.TXLD` (42_duplex_engine R218): where its guard is false the step does not exist (log 5). -/
def execEngTxld (s : State) : Result :=
  if txldGuard s.eng then
    .next (silent { s with eng := { s.eng.loadTx s.params.cap with engPhase := .waitRx } })
  else .fault .transmitBlocked

end Sys2Proof.Machine
end

