-- ==== Sys2Proof/Machine/Latch.lean ====
section
/-! DEFINITION. The meanings of the underflow toggle latch (41_toggle_latch): `IRQ.EN`, `OUT.SET`, `UTL.SVC`. -/

namespace Sys2Proof.Machine

/-- `IRQ.EN` (41_toggle_latch R180). -/
def execIrqEn (s : State) : Result :=
  .next (respond .ok 0 { s with cnt := { s.cnt with ufIen := true } })

/-- `OUT.SET` (41_toggle_latch R182). -/
def execOutSet (lvl : Bool) (s : State) : Result :=
  if s.cnt.configured then refuse .badState s
  else .next (respond .ok 0 { s with cnt := { s.cnt with outLevel := lvl } })

/-- `UTL.SVC` (41_toggle_latch R184): where its guard is false the step does not exist (log 5). -/
def execUtlSvc (s : State) : Result :=
  if utlGuard s.cnt then .next (silent { s with cnt := s.cnt.takeUnderflowService })
  else .fault .noUnderflowRequest

end Sys2Proof.Machine
end

