-- ==== Sys2Proof/Machine/System.lean ====
section
/-! DEFINITION. The meanings of the system operations (43_system_ops): `STAT.RD`, `RST`. -/

namespace Sys2Proof.Machine

/-- `STAT.RD` (43_system_ops R250): bit 2 is unspecified before configuration, a free value (log 12). -/
def execStatRd (s : State) : Result :=
  if s.cnt.configured then .next (respond .ok (statWord s.cnt.cntDir.toBit s.cnt s.eng) s)
  else
    .next (respond .ok (statWord (Config.counterBit s.cnt.draws) s.cnt s.eng)
      { s with cnt := { s.cnt with draws := s.cnt.draws + 1 } })

/-- `RST` (43_system_ops R252). -/
def execRst (s : State) : Result :=
  .next (silent { s with cnt := s.cnt.afterRst, eng := s.eng.afterRst s.params.cap })

end Sys2Proof.Machine
end

