-- ==== Sys2Proof/Machine/Dispatch.lean ====
section
/-! DEFINITION. The dispatch: one arm per operation, each a direct call of its meaning. -/

namespace Sys2Proof.Machine

/-- The effect of one operation on the state. -/
def exec (i : Instr) (s : State) : Host.Outcome State Fault Refusal :=
  match i with
  | .cntCfg top init dir osr => Sys2Proof.Machine.execCntCfg top init dir osr s
  | .cntRd => Sys2Proof.Machine.execCntRd s
  | .irqEn => Sys2Proof.Machine.execIrqEn s
  | .outSet lvl => Sys2Proof.Machine.execOutSet lvl s
  | .statRd => Sys2Proof.Machine.execStatRd s
  | .txPut b => Sys2Proof.Machine.execTxPut b s
  | .rxGet => Sys2Proof.Machine.execRxGet s
  | .engPreload => Sys2Proof.Machine.execEngPreload s
  | .engEn => Sys2Proof.Machine.execEngEn s
  | .edge => Sys2Proof.Machine.execEdge s
  | .xchg m => Sys2Proof.Machine.execXchg m s
  | .rst => Sys2Proof.Machine.execRst s
  | .utlSvc => Sys2Proof.Machine.execUtlSvc s
  | .engRxst => Sys2Proof.Machine.execEngRxst s
  | .engTxld => Sys2Proof.Machine.execEngTxld s

end Sys2Proof.Machine
end

