-- ==== Sys2Proof/Machine/Delivery.lean ====
section
/-! DEFINITION. How a word reaches the core (30_encoding R103, R107, R108), what the core does by itself when none has
(60_exceptions R290, R292), and a trace as a list of operations (00_scope R17). -/

namespace Sys2Proof.Machine

/-- What a word is on its port. -/
inductive Verdict where
  /-- it spells this operation, which its port admits -/
  | run (i : Instr)
  /-- on the host command port: an illegal word (30_encoding R107) -/
  | illegal
  /-- on a trace input: no event (30_encoding R107) -/
  | noEvent
  deriving DecidableEq, Repr

/-- The verdict on a word that spells nothing its port admits (30_encoding R107). -/
def rejected : Port → Verdict
  | .host => .illegal
  | .trace => .noEvent

/-- The verdict on an arrival (30_encoding R107, R108 steps 1 and 2). -/
def verdict (a : Arrival) : Verdict :=
  match decode a.word with
  | .ok i => if i.wellFormed a.port then .run i else rejected a.port
  | .error _ => rejected a.port

/-- Deliver an arrival to the core. -/
def deliver (a : Arrival) (s : State) : Result :=
  match verdict a with
  | .run i => exec i s
  | .illegal => refuse .illegal s
  | .noEvent => .refused .notATraceWord

/-- The sequencer's step that may be taken now, if any (42_duplex_engine R216 to R219). -/
def sequencerChoice (e : EngineHalf) : Option Instr :=
  if rxstGuard e then some .engRxst
  else if txldGuard e then some .engTxld
  else none

/-- The internal step the core takes when no arrival waits: UTL's or SEQ's, a free choice where both may move
(60_exceptions R290, R292; log 2). -/
def internalChoice (s : State) : Option Instr :=
  if utlGuard s.cnt && ((sequencerChoice s.eng).isNone || Config.latchFirst s.turn) then some .utlSvc
  else sequencerChoice s.eng

/-- One step of the core: deliver the first waiting arrival, or take an internal step, or wait. -/
def takeStep (s : State) : Result :=
  match s.inputs with
  | a :: rest => deliver a { s with inputs := rest }
  | [] =>
    match internalChoice s with
    | some i => exec i { s with turn := s.turn + 1 }
    | none => .next (silent s)

/-- A list of operations in order, each one atomic step; it stops at the first step that does not exist
(00_scope R17, 20_memory R79). -/
def execAll : List Instr → State → Result
  | [], s => .next s
  | i :: is, s =>
    match exec i s with
    | .next t => execAll is t
    | .fault r => .fault r
    | .refused r => .refused r

end Sys2Proof.Machine
end

