-- ==== Sys2Proof/Machine/Step.lean ====
section
/-! DEFINITION. One step of the machine, and how a word is placed where the next step takes it. -/

namespace Sys2Proof.Machine

/-- One step (00_scope R17). -/
def step (s : State) : Host.Outcome State Fault Refusal := takeStep s

/-- The state with the word put to the core first: the next step takes it (log 1). -/
def State.withFetchWord (s : State) (nbits w : Nat) : State :=
  { s with inputs := arrivalOfWord (tableWord nbits w) :: s.inputs }

end Sys2Proof.Machine
end

