-- ==== Sys2Proof/Safety.lean ====
section
/-! DEFINITION. What counts as a good state (10_state R53, R54), the hazards the environment must respect
(70_reset_and_hazards R331 to R337), what is unspecified (10_state R61), and traces with their ghost
counts and fairness (00_scope R17, 10_state R52, 60_exceptions R292): the terms that claims use. -/

namespace Sys2Proof.Machine

/-! The invariants. -/

/-- The counter-half invariants (10_state R53). -/
structure CounterInv (c : CounterHalf) : Prop where
  /-- R53 (a) -/
  exclusive : ¬ (c.configured = true ∧ c.cfgErr = true)
  /-- R53 (b): `0 <= cnt_value <= cnt_top` -/
  value_le_top : c.configured = true → c.cntValue.toNat ≤ c.cntTop.toNat
  /-- R53 (b): `cnt_top <= TOP_MAX` -/
  top_le_max : c.configured = true → c.cntTop.toNat ≤ Config.topMax
  /-- R53 (b): `1 <= osr` -/
  ratio_pos : c.configured = true → 1 ≤ c.osr.toNat
  /-- R53 (b): `edge_cnt <= osr - 1` -/
  edge_lt_ratio : c.configured = true → c.edgeCnt.toNat < c.osr.toNat
  /-- R53 (c) -/
  pending_armed : c.ufPending = true → c.configured = true

/-- The engine-half invariants (10_state R54), with the canonical form of the two memories. -/
structure EngineInv (cap : Nat) (e : EngineHalf) : Prop where
  /-- R54 (a) -/
  rxWr_lt : e.rxWr < cap
  /-- R54 (a) -/
  rxRd_lt : e.rxRd < cap
  /-- R54 (a) -/
  txWr_lt : e.txWr < cap
  /-- R54 (a) -/
  txRd_lt : e.txRd < cap
  /-- R54 (b) -/
  full_enabled : e.rxFull = true → e.engEn = true
  /-- R54 (c) -/
  waitTx_enabled : e.engPhase = .waitTx → e.engEn = true
  /-- the inbound memory is in canonical form -/
  rx_wf : e.rxBuf.wf = true
  /-- the outbound memory is in canonical form -/
  tx_wf : e.txBuf.wf = true
  /-- the inbound memory lists no index outside `0 .. CAP-1` (20_memory R76) -/
  rx_within : e.rxBuf.within cap = true
  /-- the outbound memory lists no index outside `0 .. CAP-1` (20_memory R76) -/
  tx_within : e.txBuf.within cap = true

/-- The invariant of the core. -/
structure Inv (s : State) : Prop where
  /-- `CAP` is in its legal range (00_scope R12) -/
  params : s.params.wellFormed = true
  counter : CounterInv s.cnt
  engine : EngineInv s.params.cap s.eng

/-! The hazards. None is detected by the core (60_exceptions R273). -/

/-- The hazards a single step can show (70_reset_and_hazards). -/
inductive Hazard where
  /-- R331 H-CFG: an edge before the counter is armed -/
  | cfg
  /-- R332 H-COAL: an underflow while one is pending -/
  | coal
  /-- R333 H-EN: arming before `IRQ.EN` -/
  | en
  /-- R334 H-XCHG, receive side: an exchange that meets `rx_full` = 1 -/
  | xchgRx
  /-- R334 H-XCHG, transmit side: an exchange that meets `tx_full` = 0 -/
  | xchgTx
  /-- R335 H-PRE: enabling without a pre-load, or an exchange before enabling -/
  | pre
  /-- R336 H-FILL: a byte never written goes to the transmit slot -/
  | fill
  /-- R337 H-READ, as far as one step shows it: `RX.GET` of a cell never written -/
  | read
  deriving DecidableEq, Repr

/-- The hazards that an operation runs into in a state. -/
def hazards (i : Instr) (s : State) : List Hazard :=
  match i with
  | .edge =>
    (if s.cnt.configured then [] else [.cfg]) ++
      (if s.cnt.underflowDue && s.cnt.ufPending then [.coal] else [])
  | .cntCfg _ _ _ _ => if s.cnt.ufIen then [] else [.en]
  | .engEn => if s.eng.txFull then [] else [.pre]
  | .xchg _ =>
    if s.eng.engEn then
      (if s.eng.rxFull then [.xchgRx] else []) ++ (if s.eng.txFull then [] else [.xchgTx])
    else [.pre]
  | .engPreload => if (s.eng.txBuf.read preloadIndex).isSome then [] else [.fill]
  | .engTxld => if (s.eng.txBuf.read s.eng.txRd).isSome then [] else [.fill]
  | .rxGet => if (s.eng.rxBuf.read s.eng.rxRd).isSome then [] else [.read]
  | .cntRd => []
  | .irqEn => []
  | .outSet _ => []
  | .statRd => []
  | .txPut _ => []
  | .rst => []
  | .utlSvc => []
  | .engRxst => []

/-! What is unspecified. -/

/-- The operation puts an unspecified value out or stores one where it counts as known: the cases 10_state R61 lists,
and underrun and overrun (42_duplex_engine R211, R213, R214). -/
def usesUnspecified (i : Instr) (s : State) : Bool :=
  match i with
  | .cntRd => !s.cnt.configured
  | .statRd => !s.cnt.configured
  | .xchg _ =>
    !(s.eng.engEn && s.eng.txFull) || (s.eng.rxFull && s.params.overrun == .any)
  | .rxGet => (s.eng.rxBuf.read s.eng.rxRd).isNone
  | .engPreload => !s.eng.engEn && (s.eng.txBuf.read preloadIndex).isNone
  | .engTxld => (s.eng.txBuf.read s.eng.txRd).isNone
  | .cntCfg _ _ _ _ => false
  | .irqEn => false
  | .outSet _ => false
  | .txPut _ => false
  | .engEn => false
  | .edge => false
  | .rst => false
  | .utlSvc => false
  | .engRxst => false

/-- A counter half with everything unspecified blanked: its draws, and before configuration its four registers. -/
def CounterHalf.known (c : CounterHalf) : CounterHalf :=
  if c.configured then { c with draws := 0 }
  else { c with cntValue := 0, cntTop := 0, cntDir := .down, osr := 0, draws := 0 }

/-- An engine half with everything unspecified blanked: its draws, the filling of its unwritten cells, and the
slots that hold no valid byte (10_state R39, R41). -/
def EngineHalf.known (e : EngineHalf) : EngineHalf :=
  { e with
    rxSlot := if e.rxFull then e.rxSlot else 0
    txSlot := if e.txFull then e.txSlot else 0
    draws := 0
    fill := 0 }

/-- What of a state is specified. -/
def State.known (s : State) : State := { s with cnt := s.cnt.known, eng := s.eng.known, turn := 0 }

/-! Finite traces and their ghost counts (10_state R52). -/

/-- One step of a trace: the operation, the state before and the state after. -/
structure Taken where
  op : Instr
  pre : State
  post : State
  deriving DecidableEq, Repr

/-- The steps a list of operations takes, up to the first that does not exist. -/
def trail : List Instr → State → List Taken
  | [], _ => []
  | i :: is, s =>
    match exec i s with
    | .next t => ⟨i, s, t⟩ :: trail is t
    | .fault _ => []
    | .refused _ => []

/-- The step is an `EDGE` that raises an UnderflowEvent (40_counter R153). -/
def Taken.underflows (k : Taken) : Bool := k.op == .edge && k.pre.cnt.underflowDue

/-- The number of UnderflowEvents along a trace. -/
def underflowCount (is : List Instr) (s : State) : Nat := (trail is s).countP Taken.underflows

/-- The number of reactions of a list of operations. -/
def serviceCount (is : List Instr) : Nat := is.count .utlSvc

/-- No underflow happens while one is pending (70_reset_and_hazards R332). -/
def coalescingFree (is : List Instr) (s : State) : Bool :=
  (trail is s).all (fun k => !(k.underflows && k.pre.cnt.ufPending))

/-- The bytes the master receives along a trace: the wire stream (42_duplex_engine R222 (b)). -/
def wireStream (is : List Instr) (s : State) : List Byte :=
  (trail is s).filterMap (fun k =>
    match k.post.output with
    | .miso b => some b
    | .silent => none
    | .response _ => none)

/-- The bytes written into the transmit slot along a trace: the slot-load stream (42_duplex_engine R222 (a)). -/
def slotLoads (is : List Instr) (s : State) : List Byte :=
  (trail is s).filterMap (fun k =>
    if k.op == .engTxld || (k.op == .engPreload && !k.pre.eng.engEn) then some k.post.eng.txSlot
    else none)

/-! Which half an operation belongs to (00_scope R3): `STAT.RD` and `RST` touch both. -/

/-- The operation reads or writes the counter half. -/
def touchesCounter : Instr → Bool
  | .cntCfg _ _ _ _ => true
  | .cntRd => true
  | .irqEn => true
  | .outSet _ => true
  | .statRd => true
  | .txPut _ => false
  | .rxGet => false
  | .engPreload => false
  | .engEn => false
  | .edge => true
  | .xchg _ => false
  | .rst => true
  | .utlSvc => true
  | .engRxst => false
  | .engTxld => false

/-- The operation reads or writes the engine half. -/
def touchesEngine : Instr → Bool
  | .cntCfg _ _ _ _ => false
  | .cntRd => false
  | .irqEn => false
  | .outSet _ => false
  | .statRd => true
  | .txPut _ => true
  | .rxGet => true
  | .engPreload => true
  | .engEn => true
  | .edge => false
  | .xchg _ => true
  | .rst => true
  | .utlSvc => false
  | .engRxst => true
  | .engTxld => true

/-- The operation moves the engine: it touches the engine half, and is neither the status read nor the host's read of the
inbound buffer, which may fall anywhere in a hazard-free run (42_duplex_engine R220). -/
def drivesEngine (i : Instr) : Bool := touchesEngine i && i != .statRd && i != .rxGet

/-! Infinite traces and fairness (60_exceptions R292). -/

/-- The operations and states of an infinite trace: every step exists (00_scope R17). -/
def IsTrace (ops : Nat → Instr) (states : Nat → State) : Prop :=
  ∀ n, exec (ops n) (states n) = .next (states (n + 1))

/-- UTL is weakly fair: its guard does not stay true for ever without its step being taken. -/
def FairLatch (ops : Nat → Instr) (states : Nat → State) : Prop :=
  ∀ n, ∃ m, n ≤ m ∧ (utlGuard (states m).cnt = false ∨ ops m = .utlSvc)

/-- SEQ is weakly fair: the guard of its next step does not stay true for ever without the step being taken. -/
def FairSequencer (ops : Nat → Instr) (states : Nat → State) : Prop :=
  ∀ n, ∃ m, n ≤ m ∧
    (sequencerChoice (states m).eng = none ∨ sequencerChoice (states m).eng = some (ops m))

end Sys2Proof.Machine
end

