-- ==== Sys2Proof/Certificates/Slice0/Obligations.lean ====
section
/-! DEFINITION. The statements for the provers, in the order of OBLIGATIONS.json: encoding, delivery, the fifteen
operations, rules of the whole machine, invariants, traces. -/

open Sys2Proof Sys2Proof.Machine

/-! Encoding. -/

/-- 30_encoding R106: words written out bit by bit decode to the operations they stand for. The words are those of
95_test_vectors V-C3, V-L4, V-T1, V-Q1, P1 and P3; the rejects are V-I12, V-L8 and X9. -/
def Obligations.WrittenOutWordsDecode : Prop :=
  decode 0x0102000100040009#64 = .ok (.cntCfg 9 4 .up 2) ∧
  decode 0x0400000000000001#64 = .ok (.outSet true) ∧
  decode 0x10000000000000A0#64 = .ok (.txPut 0xA0) ∧
  decode 0x0500000000000000#64 = .ok .statRd ∧
  decode 0xF000000000000000#64 = .ok .utlSvc ∧
  decode 0x8100000000000009#64 = .ok (.xchg 9) ∧
  decode 0xF200000000000000#64 = .ok .engTxld ∧
  decode 0x0101800000020002#64 = .error .reservedBits ∧
  decode 0x0400000000000002#64 = .error .reservedBits ∧
  decode 0x8300000000000000#64 = .error .unassignedOpcode

/-- 30_encoding R101, R106: decoding the word of an operation gives the operation back, for every operation and every
operand. -/
def Obligations.DecodeOfEncodeIsTheInstruction : Prop :=
  ∀ i : Instr, decode (encode i) = .ok i

/-- 30_encoding R101, R107: a word that decodes is the word of what it decodes to, so no operation has a second
spelling. -/
def Obligations.EncodeOfDecodeIsTheWord : Prop :=
  ∀ (w : OpWord) (i : Instr), decode w = .ok i → encode i = w

/-- 30_encoding R106: the decoder, written by fields, accepts exactly the words that the map's match and mask select, and
gives the operation of that row; and the rows are disjoint. -/
def Obligations.DecoderAgreesWithMatchAndMask : Prop :=
  (∀ (w : OpWord) (i : Instr),
    decode w = .ok i ↔ ∃ r ∈ opcodeTable, w &&& r.mask = r.pattern ∧ r.build w = i) ∧
  (∀ (w : OpWord) (j k : Nat) (r r' : OpcodeRow),
    opcodeTable[j]? = some r → opcodeTable[k]? = some r' →
    w &&& r.mask = r.pattern → w &&& r'.mask = r'.pattern → j = k)

/-- 20_memory R74: an operation word carried as bytes goes least significant byte first, and so does a response word; eight
bytes are read back as the operation, four as the response, and leave the rest; fewer are rejected (log 21, the model's
choice). -/
def Obligations.TransportBytesRoundTrip : Prop :=
  (∀ (i : Instr) (rest : List Byte), decodeBytes (encodeBytes i ++ rest) = .ok (i, rest)) ∧
  (∀ (i : Instr) (k : Nat), k < 8 → (encodeBytes i)[k]? = some ((encode i).extractLsb' (8 * k) 8)) ∧
  (∀ bs : List Byte, bs.length < 8 → decodeBytes bs = .error .truncated) ∧
  (∀ (r : RspWord) (k : Nat), k < 4 → (bytesOfResponse r)[k]? = some (r.extractLsb' (8 * k) 8)) ∧
  (∀ r : RspWord, (bytesOfResponse r).length = 4) ∧
  (∀ (r : RspWord) (rest : List Byte), readResponse (bytesOfResponse r ++ rest) = .ok (r, rest)) ∧
  (∀ bs : List Byte, bs.length < 4 → readResponse bs = .error .truncated)

/-! Delivery. -/

/-- A step runs the decoded operation: when the first waiting arrival's word decodes to an operation its port admits,
the step is `exec` of it in the state without that arrival (log 1, the model's form of arrival). -/
def Obligations.StepRunsTheDecodedInstruction : Prop :=
  ∀ (s : State) (a : Arrival) (rest : List Arrival) (i : Instr),
    s.inputs = a :: rest → decode a.word = .ok i → i.wellFormed a.port = true →
    step s = exec i { s with inputs := rest }

/-- 30_encoding R107, R108: the verdict on every word. On the host command port a word that a row of the nine host commands
selects runs that command, and every other word is refused with `ILLEGAL` and changes no state (the arrival is taken). On
the trace input a word that a row of the events and internal steps selects runs that operation, and every other word spells
no event: the schedule is no trace, there is no next state. R107 says so of a class 0x8 or 0xF word with a set reserved bit
or an unassigned opcode; that a host command's word and a word of a reserved class on the trace input have no step either,
and that all events share the one trace port, is the model's choice (log 11). -/
def Obligations.EveryWordHasOneVerdict : Prop :=
  ∀ (s : State) (p : Port) (w : OpWord) (rest : List Arrival), s.inputs = ⟨p, w⟩ :: rest →
    (∀ r ∈ opcodeTable, (r.issuer = .host ↔ p = .host) → w &&& r.mask = r.pattern →
      step s = exec (r.build w) { s with inputs := rest }) ∧
    (p = .host → (∀ r ∈ opcodeTable, r.issuer = .host → w &&& r.mask ≠ r.pattern) →
      step s = .next { s with inputs := rest, output := .response 0x04000000#32 }) ∧
    (p = .trace → (∀ r ∈ opcodeTable, r.issuer ≠ .host → w &&& r.mask ≠ r.pattern) →
      ∀ t, step s ≠ .next t)

/-- The model's own form of "no such step" (log 5, log 11): an internal step whose guard is false stops with the fault that
names it, and a trace word that spells no event stops with the refusal that says so. -/
def Obligations.WhatIsNoTraceStopsByName : Prop :=
  ∀ s : State,
    (utlGuard s.cnt = false → exec .utlSvc s = .fault .noUnderflowRequest) ∧
    (rxstGuard s.eng = false → exec .engRxst s = .fault .receiveBlocked) ∧
    (txldGuard s.eng = false → exec .engTxld s = .fault .transmitBlocked) ∧
    (∀ (w : OpWord) (rest : List Arrival), s.inputs = ⟨.trace, w⟩ :: rest →
      (∀ r ∈ opcodeTable, r.issuer ≠ .host → w &&& r.mask ≠ r.pattern) → step s = .refused .notATraceWord)

/-- 20_memory R79, R80: stepping the machine along a schedule of words is running the operations they spell, in order,
each on the state the last one left. -/
def Obligations.StepsOfAScheduleAreItsTrace : Prop :=
  ∀ (is : List Instr) (s t : State) (rest : List Arrival),
    s.inputs = is.map Instr.arrival ++ rest →
    execAll is { s with inputs := [] } = .next t →
    core.run is.length s = .next { t with inputs := rest }

/-- Log 2 (the model's choice for a core nothing is put to): the step is then UTL's or SEQ's, one whose guard is true
(60_exceptions R290), or, where no guard is true, it changes nothing but the output record. -/
def Obligations.CoreMovesByItselfOnlyUnderAGuard : Prop :=
  ∀ s : State, s.inputs = [] →
    (utlGuard s.cnt = true ∧ step s = exec .utlSvc { s with turn := s.turn + 1 }) ∨
    (rxstGuard s.eng = true ∧ step s = exec .engRxst { s with turn := s.turn + 1 }) ∨
    (txldGuard s.eng = true ∧ step s = exec .engTxld { s with turn := s.turn + 1 }) ∨
    (utlGuard s.cnt = false ∧ rxstGuard s.eng = false ∧ txldGuard s.eng = false ∧
      step s = .next { s with output := .silent })

/-- Weak fairness in the core left alone (60_exceptions R292; log 2): from every state, three steps with nothing put to
the core complete, and after them no internal guard is true, whichever of UTL and SEQ went first. -/
def Obligations.CoreLeftAloneSettlesInThreeSteps : Prop :=
  ∀ s : State, s.inputs = [] →
    ∃ t, core.run 3 s = .next t ∧ utlGuard t.cnt = false ∧ sequencerChoice t.eng = none ∧
      t.inputs = [] ∧ t.cnt.outLevel = xor s.cnt.outLevel s.cnt.irq

/-! The fifteen operations. Each statement gives the next state on every path of the operation's pseudocode, from every
state, with its whole frame. -/

/-- 40_counter R142, R143: `CNT.CFG`. The range check is stated on the two's complement readings. -/
def Obligations.CntCfgArmsRefusesOrLatchesTheError : Prop :=
  ∀ (top init : Half) (dir : Direction) (osr : Byte) (s : State),
    (s.cnt.configured = true ∨ s.cnt.cfgErr = true →
      exec (.cntCfg top init dir osr) s = .next { s with output := .response 0x02000000#32 }) ∧
    (s.cnt.configured = false → s.cnt.cfgErr = false →
      0 ≤ top.toInt → 0 ≤ init.toInt → init.toInt ≤ top.toInt → 1 ≤ osr.toNat →
      exec (.cntCfg top init dir osr) s =
        .next { s with
          cnt := { s.cnt with cntTop := top, cntValue := init, cntDir := dir, osr := osr, edgeCnt := 0,
                              configured := true }
          output := .response 0x00000000#32 }) ∧
    (s.cnt.configured = false → s.cnt.cfgErr = false →
      (top.toInt < 0 ∨ init.toInt < 0 ∨ top.toInt < init.toInt ∨ osr.toNat = 0) →
      exec (.cntCfg top init dir osr) s =
        .next { s with cnt := { s.cnt with cfgErr := true }, output := .response 0x01000000#32 })

/-- 40_counter R156: `CNT.RD` answers the live value; before configuration the data is any 16 bits. No state changes (but
the model's count of draws, before configuration). -/
def Obligations.CntRdAnswersTheCounter : Prop :=
  ∀ s : State, ∃ t d,
    exec .cntRd s = .next t ∧
    t = { s with cnt := { s.cnt with draws := t.cnt.draws }, output := .response (BitVec.setWidth 32 (d : Half)) } ∧
    (s.cnt.configured = true → d = s.cnt.cntValue ∧ t.cnt.draws = s.cnt.draws)

/-- 41_toggle_latch R180: `IRQ.EN` sets `uf_ien`, in every state, and a second one changes nothing more. -/
def Obligations.IrqEnSetsTheEnable : Prop :=
  ∀ s : State, ∃ t,
    exec .irqEn s = .next t ∧
    t = { s with cnt := { s.cnt with ufIen := true }, output := .response 0x00000000#32 } ∧
    exec .irqEn t = .next t

/-- 41_toggle_latch R182: `OUT.SET` sets the level while the counter is not armed and is refused after. -/
def Obligations.OutSetOnlyBeforeArming : Prop :=
  ∀ (lvl : Bool) (s : State),
    (s.cnt.configured = true →
      exec (.outSet lvl) s = .next { s with output := .response 0x03000000#32 }) ∧
    (s.cnt.configured = false →
      exec (.outSet lvl) s =
        .next { s with cnt := { s.cnt with outLevel := lvl }, output := .response 0x00000000#32 })

/-- 43_system_ops R250, 10_state R48: `STAT.RD` answers the status word, bit by bit; bit 2 is unspecified before
configuration; nothing of the state changes (but the model's count of draws, before configuration). -/
def Obligations.StatRdAnswersTheStatusWord : Prop :=
  ∀ s : State, ∃ t w,
    exec .statRd s = .next t ∧ t.output = .response w ∧
    t = { s with cnt := { s.cnt with draws := t.cnt.draws }, output := .response w } ∧
    (s.cnt.configured = true → t.cnt.draws = s.cnt.draws) ∧
    w.extractLsb' 16 16 = 0#16 ∧
    w.getLsbD 0 = s.cnt.configured ∧ w.getLsbD 1 = s.cnt.cfgErr ∧
    (s.cnt.configured = true → (w.getLsbD 2 = true ↔ s.cnt.cntDir = .up)) ∧
    w.getLsbD 3 = s.cnt.ufPending ∧ w.getLsbD 4 = s.cnt.ufIen ∧
    w.getLsbD 5 = (s.cnt.ufPending && s.cnt.ufIen) ∧ w.getLsbD 6 = s.cnt.outLevel ∧
    w.getLsbD 7 = false ∧ w.getLsbD 8 = s.eng.engEn ∧
    (w.getLsbD 9 = true ↔ s.eng.engPhase = .waitTx) ∧
    w.getLsbD 10 = s.eng.rxFull ∧ w.getLsbD 11 = s.eng.txFull ∧ w.extractLsb' 12 4 = 0#4

/-- 42_duplex_engine R202: `TX.PUT` stores at `tx_wr` and advances it modulo `CAP` while the engine is disabled, and is
refused after; every other cell of both buffers, and everything else, is unchanged. -/
def Obligations.TxPutStoresAtTheWriteIndex : Prop :=
  ∀ (b : Byte) (s : State),
    (s.eng.engEn = true → exec (.txPut b) s = .next { s with output := .response 0x03000000#32 }) ∧
    (s.eng.engEn = false → ∃ t,
      exec (.txPut b) s = .next t ∧
      t = { s with
        eng := { s.eng with txBuf := t.eng.txBuf, txWr := (s.eng.txWr + 1) % s.params.cap }
        output := .response 0x00000000#32 } ∧
      t.eng.memRead .tx s.eng.txWr = b ∧
      (∀ a, a ≠ s.eng.txWr → t.eng.memRead .tx a = s.eng.memRead .tx a) ∧
      (∀ a, t.eng.memRead .rx a = s.eng.memRead .rx a))

/-- 42_duplex_engine R204: `RX.GET` answers the cell at `rx_rd`, zero-extended, and advances `rx_rd` modulo `CAP`, in
every state; it disturbs nothing else. -/
def Obligations.RxGetReadsAtTheReadIndex : Prop :=
  ∀ s : State,
    exec .rxGet s =
      .next { s with
        eng := { s.eng with rxRd := (s.eng.rxRd + 1) % s.params.cap }
        output := .response ((s.eng.memRead .rx s.eng.rxRd).setWidth 32) }

/-- 42_duplex_engine R206, R207: `ENG.PRELOAD` loads the slot from cell 0, whatever the indices are, and changes no
index; it is refused once the engine is enabled. -/
def Obligations.EngPreloadLoadsCellZero : Prop :=
  ∀ s : State,
    (s.eng.engEn = true → exec .engPreload s = .next { s with output := .response 0x03000000#32 }) ∧
    (s.eng.engEn = false →
      exec .engPreload s =
        .next { s with
          eng := { s.eng with txSlot := s.eng.memRead .tx 0, txFull := true }
          output := .response 0x00000000#32 })

/-- 42_duplex_engine R208, R209: `ENG.EN` enables, with or without a pre-load, and is refused once enabled. -/
def Obligations.EngEnEnablesOnce : Prop :=
  ∀ s : State,
    (s.eng.engEn = true → exec .engEn s = .next { s with output := .response 0x03000000#32 }) ∧
    (s.eng.engEn = false →
      exec .engEn s =
        .next { s with eng := { s.eng with engEn := true }, output := .response 0x00000000#32 })

/-- 40_counter R147 to R155: `EDGE`, path by path. -/
def Obligations.EdgeGatesCountsAndReloads : Prop :=
  ∀ s : State, ∃ c,
    exec .edge s = .next { s with cnt := c, output := .silent } ∧
    (s.cnt.configured = false → c = s.cnt) ∧
    (s.cnt.configured = true → s.cnt.edgeCnt.toNat + 1 < s.cnt.osr.toNat →
      c = { s.cnt with edgeCnt := s.cnt.edgeCnt + 1 }) ∧
    (s.cnt.configured = true → s.cnt.osr.toNat ≤ s.cnt.edgeCnt.toNat + 1 →
      (s.cnt.cntDir = .down → s.cnt.cntValue = 0 →
        c = { s.cnt with edgeCnt := 0, cntValue := s.cnt.cntTop, ufPending := true }) ∧
      (s.cnt.cntDir = .down → s.cnt.cntValue ≠ 0 →
        c = { s.cnt with edgeCnt := 0, cntValue := s.cnt.cntValue - 1 }) ∧
      (s.cnt.cntDir = .up → s.cnt.cntValue = s.cnt.cntTop →
        c = { s.cnt with edgeCnt := 0, cntValue := 0 }) ∧
      (s.cnt.cntDir = .up → s.cnt.cntValue ≠ s.cnt.cntTop →
        c = { s.cnt with edgeCnt := 0, cntValue := s.cnt.cntValue + 1 }))

/-- 42_duplex_engine R210, R211, R212: `XCHG` in every state of the two slots. Where no valid byte stands in the slot, `miso` is
any byte; where `rx_full` was 1, `rx_slot` is any byte under OVERRUN_POLICY any, which is all the core fixes. The clauses on
keep_old (the old byte stays) and take_new (the new one replaces it) rest on the optional parameter that R214 lets a model
keep; keeping it is the model's choice (log 6), and so is the count of draws (log 4). -/
def Obligations.XchgExchangesTheSlots : Prop :=
  ∀ (m : Byte) (s : State), ∃ t v,
    exec (.xchg m) s = .next t ∧ t.output = .miso v ∧
    (s.eng.engEn = false →
      t = { s with eng := { s.eng with draws := t.eng.draws }, output := .miso v }) ∧
    (s.eng.engEn = true →
      t = { s with
        eng := { s.eng with
          txFull := false, rxFull := true, rxSlot := t.eng.rxSlot, draws := t.eng.draws }
        output := .miso v } ∧
      (s.eng.txFull = true → v = s.eng.txSlot) ∧
      (s.eng.rxFull = false → t.eng.rxSlot = m) ∧
      (s.eng.rxFull = true → s.params.overrun = .keepOld → t.eng.rxSlot = s.eng.rxSlot) ∧
      (s.eng.rxFull = true → s.params.overrun = .takeNew → t.eng.rxSlot = m))

/-- 43_system_ops R252, 10_state R60: `RST` in every state. The variables of R61 are unspecified: the statement says nothing of
them. -/
def Obligations.RstResetsEveryVariable : Prop :=
  ∀ s : State, ∃ t,
    exec .rst s = .next t ∧
    t.cnt.edgeCnt = 0 ∧ t.cnt.configured = false ∧ t.cnt.cfgErr = false ∧ t.cnt.ufPending = false ∧
    t.cnt.ufIen = false ∧ t.cnt.outLevel = false ∧
    t.eng.rxWr = 0 ∧ t.eng.rxRd = 0 ∧ t.eng.txWr = 0 ∧ t.eng.txRd = 1 % s.params.cap ∧
    t.eng.rxFull = false ∧ t.eng.txFull = false ∧ t.eng.engEn = false ∧ t.eng.engPhase = .waitRx ∧
    t = { s with cnt := t.cnt, eng := t.eng, output := .silent }

/-- 10_state R60: power-on and `RST` are the same event: the model's state right after reset and the state after an `RST` agree
on everything specified (the unspecified registers of the first are the model's choice, log 7, log 8), and `CAP` is 10
there, the spec's default (00_scope R12; log 6). -/
def Obligations.PowerOnIsTheResetEvent : Prop :=
  State.reset.params.cap = 10 ∧
  ∀ s : State, ∃ t, exec .rst s = .next t ∧
    t.cnt.known = (State.resetWith s.params).cnt.known ∧ t.eng.known = (State.resetWith s.params).eng.known

/-- The model's form of an unspecified value (00_scope R19; log 4, log 9, log 10, log 12): each is the next draw of its half, a
constant of which nothing is known, and a draw is used once; the cells of both buffers after `RST` are the unspecified bytes
of the next filling. -/
def Obligations.UnspecifiedValuesAreFreshDraws : Prop :=
  ∀ s t : State,
    (s.cnt.configured = false → exec .cntRd s = .next t →
      t.output = .response ((Config.counterHalf s.cnt.draws).setWidth 32) ∧ t.cnt.draws = s.cnt.draws + 1) ∧
    (s.cnt.configured = false → exec .statRd s = .next t →
      (∀ w, t.output = .response w → w.getLsbD 2 = Config.counterBit s.cnt.draws) ∧
      t.cnt.draws = s.cnt.draws + 1) ∧
    (∀ m, exec (.xchg m) s = .next t →
      ((s.eng.engEn = false ∨ s.eng.txFull = false) → t.output = .miso (Config.engineByte s.eng.draws)) ∧
      (s.eng.engEn = true → s.eng.rxFull = true → s.params.overrun = .any →
        t.eng.rxSlot = Config.engineByte (s.eng.draws + 1)) ∧
      t.eng.draws = s.eng.draws + (if s.eng.engEn then 2 else 1)) ∧
    (exec .rst s = .next t →
      t.cnt.cntValue = Config.counterHalf s.cnt.draws ∧ t.cnt.cntTop = Config.counterHalf (s.cnt.draws + 1) ∧
      (t.cnt.cntDir = .up ↔ Config.counterBit (s.cnt.draws + 2) = true) ∧
      t.cnt.osr = Config.counterByte (s.cnt.draws + 3) ∧ t.cnt.draws = s.cnt.draws + 4 ∧
      t.eng.rxSlot = Config.engineByte s.eng.draws ∧ t.eng.txSlot = Config.engineByte (s.eng.draws + 1) ∧
      t.eng.draws = s.eng.draws + 2 ∧ t.eng.fill = s.eng.fill + 1 ∧
      (∀ j, t.eng.memRead .rx j = Config.unwrittenByte (s.eng.fill + 1) .rx j) ∧
      (∀ j, t.eng.memRead .tx j = Config.unwrittenByte (s.eng.fill + 1) .tx j))

/-- 41_toggle_latch R184: `UTL.SVC` under its guard clears `uf_pending` and complements `out_level` in one step and does nothing
else; without its guard the step does not exist; and two of them never stand in a trace with no underflow between, whatever
steps stand between. -/
def Obligations.UtlSvcAcknowledgesAndToggles : Prop :=
  ∀ s : State,
    (s.cnt.ufPending = true → s.cnt.ufIen = true →
      exec .utlSvc s =
        .next { s with
          cnt := { s.cnt with ufPending := false, outLevel := !s.cnt.outLevel }, output := .silent }) ∧
    (s.cnt.ufPending = false ∨ s.cnt.ufIen = false → ∀ t, exec .utlSvc s ≠ .next t) ∧
    (∀ is : List Instr, underflowCount (.utlSvc :: is) s = 0 → ∀ t, execAll (.utlSvc :: is ++ [.utlSvc]) s ≠ .next t)

/-- 42_duplex_engine R216: `ENG.RXST` under its guard stores `rx_slot` at `rx_wr` and advances it; every other cell, and
everything else, is unchanged; without its guard the step does not exist. -/
def Obligations.EngRxstStoresTheReceivedByte : Prop :=
  ∀ s : State,
    (s.eng.engPhase = .waitRx → s.eng.rxFull = true → ∃ t,
      exec .engRxst s = .next t ∧
      t = { s with
        eng := { s.eng with
          rxBuf := t.eng.rxBuf, rxWr := (s.eng.rxWr + 1) % s.params.cap, rxFull := false
          engPhase := .waitTx }
        output := .silent } ∧
      t.eng.memRead .rx s.eng.rxWr = s.eng.rxSlot ∧
      (∀ a, a ≠ s.eng.rxWr → t.eng.memRead .rx a = s.eng.memRead .rx a) ∧
      (∀ a, t.eng.memRead .tx a = s.eng.memRead .tx a)) ∧
    (s.eng.engPhase = .waitTx ∨ s.eng.rxFull = false → ∀ t, exec .engRxst s ≠ .next t)

/-- The pseudocode of 42_duplex_engine R218 (its remark that the step is never blocked from reset does not follow from it, see
`EarlyExchangeCanBlockTheLoad`): `ENG.TXLD` under its guard loads the slot from `tx_rd` and advances it; without its guard
the step does not exist. -/
def Obligations.EngTxldLoadsTheNextByte : Prop :=
  ∀ s : State,
    (s.eng.engPhase = .waitTx → s.eng.txFull = false →
      exec .engTxld s =
        .next { s with
          eng := { s.eng with
            txSlot := s.eng.memRead .tx s.eng.txRd, txFull := true
            txRd := (s.eng.txRd + 1) % s.params.cap, engPhase := .waitRx }
          output := .silent }) ∧
    (s.eng.engPhase = .waitRx ∨ s.eng.txFull = true → ∀ t, exec .engTxld s ≠ .next t)

/-! Rules of the whole machine. -/

/-- 60_exceptions R270: host commands and events always complete, in every state; only the three internal steps can fail
to exist. -/
def Obligations.CommandsAndEventsAlwaysComplete : Prop :=
  ∀ (i : Instr) (s : State), i.issuer ≠ .utl → i.issuer ≠ .seq → ∃ t, exec i s = .next t

/-- 30_encoding R104: every host command answers a response word whose status is one of the four it may return, whose bits 23:16
are zero, and whose data is zero but for the three reads, and zero in a refusal; an exchange answers a byte; nothing else
answers. -/
def Obligations.WhoAnswersWhat : Prop :=
  ∀ (i : Instr) (s t : State), exec i s = .next t →
    (i.issuer = .host → ∃ w, t.output = .response w ∧
      (w.extractLsb' 24 8).toNat ≤ 3 ∧ w.extractLsb' 16 8 = 0#8 ∧
      (w.extractLsb' 24 8 ≠ 0#8 ∨ (i ≠ .cntRd ∧ i ≠ .statRd ∧ i ≠ .rxGet) → w.extractLsb' 0 16 = 0#16)) ∧
    (i.issuer = .master → ∃ v, t.output = .miso v) ∧
    (i.issuer ≠ .host → i.issuer ≠ .master → t.output = .silent)

/-- 60_exceptions R270: a refused command changes no state, but that a range error of `CNT.CFG` sets `cfg_err`. -/
def Obligations.RefusedCommandChangesNothing : Prop :=
  ∀ (i : Instr) (s t : State) (w : RspWord),
    exec i s = .next t → t.output = .response w → w.extractLsb' 24 8 ≠ 0#8 →
    t = { s with output := .response w } ∨
    (w = 0x01000000#32 ∧ (∃ top init dir osr, i = .cntCfg top init dir osr) ∧
      t = { s with cnt := { s.cnt with cfgErr := true }, output := .response w })

/-- The writers of the counter half (10_state R21 to R31, R46): which operation may change which variable. -/
def Obligations.CounterHalfWriters : Prop :=
  ∀ (i : Instr) (s t : State), exec i s = .next t → i ≠ .rst →
    ((t.cnt.cntTop ≠ s.cnt.cntTop ∨ t.cnt.cntDir ≠ s.cnt.cntDir ∨ t.cnt.osr ≠ s.cnt.osr ∨
        t.cnt.configured ≠ s.cnt.configured ∨ t.cnt.cfgErr ≠ s.cnt.cfgErr) →
      ∃ top init dir osr, i = .cntCfg top init dir osr) ∧
    ((t.cnt.cntValue ≠ s.cnt.cntValue ∨ t.cnt.edgeCnt ≠ s.cnt.edgeCnt) →
      i = .edge ∨ ∃ top init dir osr, i = .cntCfg top init dir osr) ∧
    (t.cnt.ufPending ≠ s.cnt.ufPending →
      (i = .edge ∧ t.cnt.ufPending = true) ∨ (i = .utlSvc ∧ t.cnt.ufPending = false)) ∧
    (t.cnt.ufIen ≠ s.cnt.ufIen → i = .irqEn ∧ t.cnt.ufIen = true) ∧
    (t.cnt.outLevel ≠ s.cnt.outLevel →
      i = .utlSvc ∨ (s.cnt.configured = false ∧ i = .outSet t.cnt.outLevel))

/-- The writers of the engine half (10_state R33 to R44, 20_memory R75, R81): which operation may change which variable, and
which cell. -/
def Obligations.EngineHalfWriters : Prop :=
  ∀ (i : Instr) (s t : State), exec i s = .next t → i ≠ .rst →
    (∀ a, t.eng.memRead .rx a ≠ s.eng.memRead .rx a → i = .engRxst ∧ a = s.eng.rxWr) ∧
    (∀ a, t.eng.memRead .tx a ≠ s.eng.memRead .tx a → (∃ b, i = .txPut b) ∧ a = s.eng.txWr) ∧
    (t.eng.rxWr ≠ s.eng.rxWr → i = .engRxst) ∧
    (t.eng.rxRd ≠ s.eng.rxRd → i = .rxGet) ∧
    (t.eng.txWr ≠ s.eng.txWr → ∃ b, i = .txPut b) ∧
    (t.eng.txRd ≠ s.eng.txRd → i = .engTxld) ∧
    (t.eng.rxSlot ≠ s.eng.rxSlot → ∃ m, i = .xchg m) ∧
    (t.eng.txSlot ≠ s.eng.txSlot → i = .engPreload ∨ i = .engTxld) ∧
    (t.eng.rxFull ≠ s.eng.rxFull →
      (∃ m, i = .xchg m ∧ t.eng.rxFull = true) ∨ (i = .engRxst ∧ t.eng.rxFull = false)) ∧
    (t.eng.txFull ≠ s.eng.txFull →
      (∃ m, i = .xchg m ∧ t.eng.txFull = false) ∨ ((i = .engPreload ∨ i = .engTxld) ∧ t.eng.txFull = true)) ∧
    (t.eng.engEn ≠ s.eng.engEn → i = .engEn ∧ t.eng.engEn = true) ∧
    (t.eng.engPhase ≠ s.eng.engPhase →
      (i = .engRxst ∧ t.eng.engPhase = .waitTx) ∨ (i = .engTxld ∧ t.eng.engPhase = .waitRx))

/-- 00_scope R3: an operation of one half leaves the other half whole, and no operation touches the parameters, the waiting
arrivals or the turn (the model's own fields). -/
def Obligations.OperationsStayInTheirHalf : Prop :=
  ∀ (i : Instr) (s t : State), exec i s = .next t →
    (touchesCounter i = false → t.cnt = s.cnt) ∧
    (touchesEngine i = false ∨ i = .statRd → t.eng = s.eng) ∧
    t.params = s.params ∧ t.inputs = s.inputs ∧ t.turn = s.turn

/-- 60_exceptions R291: the core is the product of two independent machines: a list of operations is a trace exactly when its
steps that touch the one half and its steps that touch the other are each a trace, and each half ends as its own steps
leave it. -/
def Obligations.HalvesAreIndependentMachines : Prop :=
  ∀ (is : List Instr) (s : State),
    (∀ t, execAll is s = .next t →
      (∃ u, execAll (is.filter touchesCounter) s = .next u ∧ u.cnt = t.cnt) ∧
      (∃ v, execAll (is.filter touchesEngine) s = .next v ∧ v.eng = t.eng)) ∧
    (∀ u v, execAll (is.filter touchesCounter) s = .next u → execAll (is.filter touchesEngine) s = .next v →
      ∃ t, execAll is s = .next t ∧ t.cnt = u.cnt ∧ t.eng = v.eng)

/-- 10_state R28: in every state of the invariant the counter half is in one of the three configuration states; it moves from
UNCONF to ARMED or CFGERR by `CNT.CFG`, from any to UNCONF by `RST`, and in no other way. -/
def Obligations.ConfigurationStateTransitions : Prop :=
  (∀ s : State, Inv s → ∃ a, s.cnt.cfgState = some a) ∧
  ∀ (i : Instr) (s t : State) (a b : CfgState),
    exec i s = .next t → s.cnt.cfgState = some a → t.cnt.cfgState = some b → a ≠ b →
    (a = .unconf ∧ (∃ top init dir osr, i = .cntCfg top init dir osr)) ∨ (b = .unconf ∧ i = .rst)

/-- 40_counter R149, R151, R153: an operation raises `uf_pending` exactly when it is an `EDGE` that is a logical pulse counting
down at 0, whether or not `uf_ien` is 1. -/
def Obligations.UnderflowRisesOnlyBelowZero : Prop :=
  ∀ (i : Instr) (s t : State), exec i s = .next t → s.cnt.ufPending = false →
    (t.cnt.ufPending = true ↔
      i = .edge ∧ s.cnt.configured = true ∧ s.cnt.osr.toNat ≤ s.cnt.edgeCnt.toNat + 1 ∧
        s.cnt.cntDir = .down ∧ s.cnt.cntValue = 0)

/-- 40_counter R154: an underflow while one is pending reloads and leaves the flag set. -/
def Obligations.SecondUnderflowCoalesces : Prop :=
  ∀ s : State, s.cnt.underflowDue = true → s.cnt.ufPending = true →
    exec .edge s =
      .next { s with cnt := { s.cnt with edgeCnt := 0, cntValue := s.cnt.cntTop }, output := .silent }

/-- 60_exceptions R283: a service and then an underflowing edge end with the line toggled once and `uf_pending` set, so the new
underflow gets its own later reaction; the other order would end with it clear. -/
def Obligations.ServiceThenUnderflowKeepsTheNewRequest : Prop :=
  ∀ s : State, s.cnt.irq = true → s.cnt.underflowDue = true →
    ∃ t u, execAll [.utlSvc, .edge] s = .next t ∧ execAll [.edge, .utlSvc] s = .next u ∧
      t.cnt.ufPending = true ∧ t.cnt.irq = true ∧ u.cnt.ufPending = false ∧
      t.cnt.outLevel = !s.cnt.outLevel ∧ u = { t with cnt := { t.cnt with ufPending := false } }

/-- 41_toggle_latch R189: in state ARMED, along any trace without `RST`, the output line is the level at the start xor the parity
of the number of services. -/
def Obligations.OutputLineIsTheParityOfServices : Prop :=
  ∀ (is : List Instr) (s t : State), execAll is s = .next t → s.cnt.configured = true → .rst ∉ is →
    t.cnt.outLevel = xor s.cnt.outLevel (serviceCount is % 2 == 1)

/-- 10_state R54 (d): once the engine is enabled, the outbound buffer and its write index never change before `RST`, and the
engine stays enabled. -/
def Obligations.EnabledEngineKeepsItsTransmitBuffer : Prop :=
  ∀ (is : List Instr) (s t : State), execAll is s = .next t → s.eng.engEn = true → .rst ∉ is →
    t.eng.engEn = true ∧ t.eng.txBuf = s.eng.txBuf ∧ t.eng.txWr = s.eng.txWr ∧
    ∀ a, t.eng.memRead .tx a = s.eng.memRead .tx a

/-- 42_duplex_engine R223: no operation carries a received byte to the outbound side: from states that agree on everything but
the received bytes, exchanging different bytes and running the same other operations gives states that agree on everything
but the received bytes, and the same bytes to the master. -/
def Obligations.TransmitSideIgnoresReceivedBytes : Prop :=
  ∀ (i : Instr) (m m' : Byte) (s s' t t' : State),
    s' = { s with eng := { s.eng with rxBuf := s'.eng.rxBuf, rxSlot := s'.eng.rxSlot } } →
    (exec (.xchg m) s = .next t → exec (.xchg m') s' = .next t' →
      t' = { t with eng := { t.eng with rxBuf := t'.eng.rxBuf, rxSlot := t'.eng.rxSlot } }) ∧
    (exec i s = .next t → exec i s' = .next t' →
      t' = { t with
        eng := { t.eng with rxBuf := t'.eng.rxBuf, rxSlot := t'.eng.rxSlot }
        output := t'.output } ∧
      (i ≠ .rxGet → t'.output = t.output))

/-- 10_state R61: no operation's effect on specified state depends on an unspecified value, but for the reads that put one out:
from states that agree on everything specified, an operation does the same to everything specified, and a step exists from
both or from neither. -/
def Obligations.UnspecifiedValuesStayConfined : Prop :=
  ∀ (i : Instr) (s s' : State), s.known = s'.known → usesUnspecified i s = false →
    (∀ t, exec i s = .next t → ∃ t', exec i s' = .next t' ∧ t.known = t'.known) ∧
    (∀ r, exec i s = .fault r → exec i s' = .fault r)

/-- 10_state R61 with 70_reset_and_hazards R334 to R337: from states that agree on everything specified, an operation that runs
into no hazard does the same to everything specified, its answer among it, and a step exists from both or from neither; the
operation runs into no hazard in the other state either. Left out are the two reads of the counter half before configuration,
which put an unspecified value out although no hazard rule speaks of them (log 12). The hazards are those that
Sys2Proof/Safety.lean reads off one step. -/
def Obligations.HazardFreeOperationActsAlikeOnUnspecifiedValues : Prop :=
  ∀ (i : Instr) (s s' : State), s.known = s'.known → hazards i s = [] →
    (s.cnt.configured = true ∨ (i ≠ .cntRd ∧ i ≠ .statRd)) →
    hazards i s' = [] ∧
    (∀ t, exec i s = .next t → ∃ t', exec i s' = .next t' ∧ t.known = t'.known) ∧
    (∀ r, exec i s = .fault r → exec i s' = .fault r)

/-! Invariants. -/

/-- 10_state R53, R54 hold right after reset, for every legal parameter, in `State.reset` too. -/
def Obligations.InvariantHoldsAtReset : Prop :=
  Inv State.reset ∧ ∀ p : Config.Params, p.wellFormed = true → Inv (State.resetWith p)

/-- 10_state R53, R54: every operation keeps the invariants of both halves and the canonical form of both memories, from every
state that has them. -/
def Obligations.EveryInstructionKeepsTheInvariant : Prop :=
  ∀ (i : Instr) (s t : State), Inv s → exec i s = .next t → Inv t

/-- 10_state R53, R54: every step of the machine keeps the invariants, whatever word is put to it, from every state that has
them. -/
def Obligations.EveryStepKeepsTheInvariant : Prop :=
  ∀ s t : State, Inv s → step s = .next t → Inv t

/-- 10_state R21, R35: in every state of the invariant that is configured, bit 15 of the counter registers is 0, so the signed and
unsigned readings agree; and each index fits its `IDX_W` bits. -/
def Obligations.RegistersFitTheirWidths : Prop :=
  ∀ s : State, Inv s →
    (s.cnt.configured = true →
      s.cnt.cntValue.msb = false ∧ s.cnt.cntTop.msb = false ∧
      s.cnt.cntValue.toInt = s.cnt.cntValue.toNat ∧ s.cnt.cntTop.toInt = s.cnt.cntTop.toNat) ∧
    s.eng.rxWr < 2 ^ Config.idxW s.params.cap ∧ s.eng.rxRd < 2 ^ Config.idxW s.params.cap ∧
    s.eng.txWr < 2 ^ Config.idxW s.params.cap ∧ s.eng.txRd < 2 ^ Config.idxW s.params.cap

/-- 40_counter R157: no counter arithmetic wraps its register: from a state of the invariant an `EDGE` changes `edge_cnt` and
`cnt_value` as the unbounded integers say. -/
def Obligations.CounterArithmeticNeverWraps : Prop :=
  ∀ s t : State, Inv s → exec .edge s = .next t → s.cnt.configured = true →
    (s.cnt.edgeCnt.toNat + 1 < s.cnt.osr.toNat → t.cnt.edgeCnt.toNat = s.cnt.edgeCnt.toNat + 1) ∧
    (s.cnt.pulseDue = true → s.cnt.cntDir = .down → s.cnt.cntValue ≠ 0 →
      t.cnt.cntValue.toNat + 1 = s.cnt.cntValue.toNat) ∧
    (s.cnt.pulseDue = true → s.cnt.cntDir = .up → s.cnt.cntValue ≠ s.cnt.cntTop →
      t.cnt.cntValue.toNat = s.cnt.cntValue.toNat + 1)

/-- 42_duplex_engine R225: with `CAP` = 1, in every state of the invariant all four indices are 0, and they stay 0. -/
def Obligations.CapacityOneIndicesAreZero : Prop :=
  ∀ (is : List Instr) (s t : State), Inv s → s.params.cap = 1 → execAll is s = .next t →
    t.eng.rxWr = 0 ∧ t.eng.rxRd = 0 ∧ t.eng.txWr = 0 ∧ t.eng.txRd = 0

/-! Traces of the counter. -/

/-- 40_counter R158: the closed forms. After `n` raw edges, and nothing else, of a counter armed with `top` = T, `init` = I,
`osr` = R: counting down, the edge count, the value, the number of underflows, and the places of the underflows; counting
up, the edge count, the value, and no underflow ever. -/
def Obligations.CountingHasItsClosedForms : Prop :=
  ∀ (s : State) (n : Nat), Inv s → s.cnt.configured = true → s.cnt.edgeCnt = 0 →
    ∃ t, execAll (Instr.edges n) s = .next t ∧
      t.cnt.edgeCnt.toNat = n % s.cnt.osr.toNat ∧
      (s.cnt.cntDir = .down →
        (t.cnt.cntValue.toNat : Int) =
          ((s.cnt.cntValue.toNat : Int) - (n / s.cnt.osr.toNat : Nat)) % (s.cnt.cntTop.toNat + 1 : Int) ∧
        underflowCount (Instr.edges n) s =
          (n / s.cnt.osr.toNat + s.cnt.cntTop.toNat - s.cnt.cntValue.toNat) / (s.cnt.cntTop.toNat + 1) ∧
        (t.cnt.underflowDue = true ↔
          ∃ k, n + 1 = s.cnt.osr.toNat * (s.cnt.cntValue.toNat + 1 + k * (s.cnt.cntTop.toNat + 1)))) ∧
      (s.cnt.cntDir = .up →
        t.cnt.cntValue.toNat = (s.cnt.cntValue.toNat + n / s.cnt.osr.toNat) % (s.cnt.cntTop.toNat + 1) ∧
        underflowCount (Instr.edges n) s = 0 ∧ t.cnt.ufPending = s.cnt.ufPending)

/-- 70_reset_and_hazards R332: after an underflow the next one comes on the `(cnt_top + 1) * osr`-th raw edge and on no earlier
one. -/
def Obligations.NextUnderflowComesAfterAFullCount : Prop :=
  ∀ (s t : State) (n : Nat), Inv s → s.cnt.underflowDue = true → exec .edge s = .next t →
    n < (s.cnt.cntTop.toNat + 1) * s.cnt.osr.toNat →
    underflowCount (Instr.edges n) t = 0 ∧
    (n + 1 = (s.cnt.cntTop.toNat + 1) * s.cnt.osr.toNat → underflowCount (Instr.edges (n + 1)) t = 1)

/-- 41_toggle_latch R187: along a trace without `RST` in which no underflow happens while one is pending, the reactions are the
underflows, less the one still pending. -/
def Obligations.EveryUnderflowHasItsOwnReaction : Prop :=
  ∀ (is : List Instr) (s t : State), execAll is s = .next t → .rst ∉ is → s.cnt.ufPending = false →
    coalescingFree is s = true →
    serviceCount is + (if t.cnt.ufPending then 1 else 0) = underflowCount is s

/-- 60_exceptions R292: on an infinite trace on which UTL is weakly fair, a request is served, or ended by `RST`. -/
def Obligations.FairLatchServesEveryRequest : Prop :=
  ∀ (ops : Nat → Instr) (states : Nat → State), IsTrace ops states → FairLatch ops states →
    ∀ n, (states n).cnt.irq = true → ∃ m, n ≤ m ∧ (ops m = .utlSvc ∨ ops m = .rst)

/-- 60_exceptions R292 (weak fairness as a predicate on infinite traces: log 17): on an infinite trace on which SEQ is weakly
fair, from a state of the invariant with a received byte, `ENG.RXST` is taken, or `RST` comes first, or the master has stopped:
the sequencer then waits in WAIT_TX with a full slot for ever. The first `ENG.RXST` stores that very byte if no exchange came
between; an exchange between is an overrun (42_duplex_engine R214), and the byte stored is then not said. -/
def Obligations.FairSequencerTakesEveryReceive : Prop :=
  ∀ (ops : Nat → Instr) (states : Nat → State), IsTrace ops states → FairSequencer ops states →
    ∀ n, Inv (states n) → (states n).eng.rxFull = true →
      (∃ m, n ≤ m ∧ (∀ k, n ≤ k → k < m → ops k ≠ .engRxst ∧ ops k ≠ .rst) ∧
        (ops m = .rst ∨
          ops m = .engRxst ∧
          ((∀ k b, n ≤ k → k < m → ops k ≠ .xchg b) →
            (states (m + 1)).eng.memRead .rx (states n).eng.rxWr = (states n).eng.rxSlot))) ∨
      (∀ m, n ≤ m → (states m).eng.engPhase = .waitTx ∧ (states m).eng.txFull = true ∧ ∀ b, ops m ≠ .xchg b)

/-! Traces of the engine. -/

/-- 42_duplex_engine R219: along a trace without `RST` the stores and the loads alternate: from WAIT_RX there are as many loads
as stores or one less, and the phase tells which. -/
def Obligations.StoresAndLoadsAlternate : Prop :=
  ∀ (is : List Instr) (s t : State), execAll is s = .next t → .rst ∉ is → s.eng.engPhase = .waitRx →
    is.count .engRxst = is.count .engTxld + (if t.eng.engPhase = .waitTx then 1 else 0)

/-- 20_memory R72, 42_duplex_engine R225: exactly `CAP` calls of `TX.PUT` bring the write index back to where it was and write
every cell once, the `k`-th byte at the `k`-th index from there. -/
def Obligations.FillingWritesEveryCellOnce : Prop :=
  ∀ (bs : List Byte) (s : State), Inv s → s.eng.engEn = false → bs.length = s.params.cap →
    ∃ t, execAll (Instr.txFill bs) s = .next t ∧ t.eng.txWr = s.eng.txWr ∧
      ∀ k b, bs[k]? = some b → t.eng.memRead .tx ((s.eng.txWr + k) % s.params.cap) = b

/-- 42_duplex_engine R220, R221, R222: a hazard-free run. From any state, with steps of the other agents and `RX.GET` anywhere
between: reset, fill, pre-load, enable; then one cycle for each byte the master sends, with the engine keeping up. No
exchange meets a hazard, and after N cycles the indices, the slot, the flags and every cell of the inbound buffer, and both
outbound streams, are as the rules give them. The run with nothing between exists. -/
def Obligations.HazardFreeRunStreamsAreExact : Prop :=
  (∀ (bs ms : List Byte) (is js : List Instr) (s r t : State),
    s.params.wellFormed = true → bs.length = s.params.cap →
    is.filter drivesEngine = .rst :: Instr.txFill bs ++ [.engPreload, .engEn] → execAll is s = .next r →
    js.filter drivesEngine = Instr.cycles ms → execAll js r = .next t →
      t.eng.rxWr = ms.length % s.params.cap ∧ t.eng.txRd = (ms.length + 1) % s.params.cap ∧
      bs[ms.length % s.params.cap]? = some t.eng.txSlot ∧ t.eng.txFull = true ∧ t.eng.rxFull = false ∧
      t.eng.engPhase = .waitRx ∧
      (∀ i b, ms[i]? = some b → ms.length ≤ i + s.params.cap → t.eng.memRead .rx (i % s.params.cap) = b) ∧
      (∀ j, ms.length ≤ j → j < s.params.cap → t.eng.memRead .rx j = r.eng.memRead .rx j) ∧
      (∀ k ∈ trail js r, (∃ m, k.op = .xchg m) → k.pre.eng.rxFull = false ∧ k.pre.eng.txFull = true) ∧
      (slotLoads is s).map some = [bs[0]?] ∧
      (slotLoads js r).map some = (List.range ms.length).map (fun k => bs[(k + 1) % s.params.cap]?) ∧
      (wireStream js r).map some = (List.range ms.length).map (fun k => bs[k % s.params.cap]?)) ∧
  (∀ (bs ms : List Byte) (s : State),
    ∃ t, execAll (.rst :: Instr.txFill bs ++ [.engPreload, .engEn] ++ Instr.cycles ms) s = .next t)

/-- The remark of 42_duplex_engine R218 that from reset `ENG.TXLD` is never blocked once the phase is WAIT_TX does not follow from
the pseudocode (log 13): with an early second exchange the sequencer stands in WAIT_TX with a full slot, and waits. -/
def Obligations.EarlyExchangeCanBlockTheLoad : Prop :=
  ∀ (a b c : Byte) (s : State), ∃ t,
    execAll ([.rst, .txPut a, .engPreload, .engEn, .xchg b, .engRxst, .xchg c, .engTxld, .engRxst]) s = .next t ∧
    t.eng.engPhase = .waitTx ∧ t.eng.txFull = true ∧ exec .engTxld t = .fault .transmitBlocked ∧
    ∃ u, execAll [.xchg b, .engTxld] t = .next u
end

