-- ==== Sys2Proof/Laws/Decode.lean ====
section
/-! SUPPORT. The small lemmas of the encoding: fields placed in words and read back, the rows of the opcode map. -/

namespace Sys2Proof

/-- One bit of a placed field. -/
theorem getLsbD_place {n : Nat} (w k : Nat) (x : BitVec n) (i : Nat) :
    (place w k x).getLsbD i = (decide (i < w) && decide (k ≤ i) && x.getLsbD (i - k)) := by
  by_cases h : i < w <;> by_cases hk : k ≤ i <;>
    simp [place, BitVec.getLsbD_shiftLeft, h, hk, Nat.not_lt.mpr]

/-- One bit of a placed field, by index. -/
theorem getElem_place {n : Nat} (w k : Nat) (x : BitVec n) (i : Nat) (h : i < w) :
    (place w k x)[i] = (decide (k ≤ i) && x.getLsbD (i - k)) := by
  rw [← BitVec.getLsbD_eq_getElem, getLsbD_place]
  simp [h]

@[simp] theorem length_bytesOfWord (w : OpWord) : (bytesOfWord w).length = 8 := rfl

@[simp] theorem length_bytesOfResponse (r : RspWord) : (bytesOfResponse r).length = 4 := rfl

@[simp] theorem readResponse_cons (b0 b1 b2 b3 : Byte) (rest : List Byte) :
    readResponse (b0 :: b1 :: b2 :: b3 :: rest) = .ok (responseOfBytes b0 b1 b2 b3, rest) := rfl

/-- Fewer than four bytes are no response word. -/
theorem readResponse_short {bs : List Byte} (h : bs.length < 4) : readResponse bs = .error .truncated := by
  match bs, h with
  | [], _ => rfl
  | [_], _ => rfl
  | [_, _], _ => rfl
  | [_, _, _], _ => rfl

@[simp] theorem Direction.ofBit_toBit (d : Direction) : Direction.ofBit d.toBit = d := by cases d <;> rfl

@[simp] theorem Direction.toBit_ofBit (b : Bool) : (Direction.ofBit b).toBit = b := by cases b <;> rfl

/-- Every row's opcode finds that row. -/
theorem rowOf_opcode (r : OpcodeRow) (h : r ∈ opcodeTable) : rowOf r.opcode = some r := by
  simp only [opcodeTable, counterRows, engineRows, eventRows, internalRows, List.cons_append, List.nil_append,
    List.mem_cons, List.not_mem_nil, or_false] at h
  rcases h with h | h | h | h | h | h | h | h | h | h | h | h | h | h | h <;> subst h <;> rfl

/-- A row that an opcode finds is a row of the map with that opcode. -/
theorem rowOf_some {op : Byte} {r : OpcodeRow} (h : rowOf op = some r) : r ∈ opcodeTable ∧ r.opcode = op := by
  refine ⟨List.mem_of_find?_eq_some h, ?_⟩
  have := List.find?_some h
  simpa using this

theorem decode_ok_iff (w : OpWord) (i : Instr) :
    decode w = .ok i ↔
      ∃ r, rowOf (opcodeOf w) = some r ∧ r.format.zerosClear w = true ∧ r.build w = i := by
  unfold decode
  cases h : rowOf (opcodeOf w) with
  | none => simp
  | some r => by_cases hz : r.format.zerosClear w = true <;> simp [hz]

/-- What a row builds is issued by the agent of its issuer column. -/
theorem build_issuer (r : OpcodeRow) (h : r ∈ opcodeTable) (w : OpWord) : (r.build w).issuer = r.issuer := by
  simp only [opcodeTable, counterRows, engineRows, eventRows, internalRows, List.cons_append, List.nil_append,
    List.mem_cons, List.not_mem_nil, or_false] at h
  rcases h with h | h | h | h | h | h | h | h | h | h | h | h | h | h | h <;> subst h <;> rfl

/-- The port of an operation is the host command port exactly for the host commands. -/
theorem port_eq_host_iff (i : Instr) : i.port = .host ↔ i.issuer = .host := by
  unfold Instr.port
  split_ifs with h <;> simp [h]

end Sys2Proof
end

