-- ==== Sys2Proof/Laws/State.lean ====
section
/-! SUPPORT. One lemma per field of each update of the state, true by rfl, so that no later proof unfolds a
record update. -/

namespace Sys2Proof.Machine

/-! Answers (Ops.lean): they change `output` alone. -/

@[simp] theorem respond_params (st : Status) (d : Half) (s : State) :
    (respond st d s).params = s.params := rfl
@[simp] theorem respond_cnt (st : Status) (d : Half) (s : State) : (respond st d s).cnt = s.cnt := rfl
@[simp] theorem respond_eng (st : Status) (d : Half) (s : State) : (respond st d s).eng = s.eng := rfl
@[simp] theorem respond_output (st : Status) (d : Half) (s : State) :
    (respond st d s).output = .response (responseWord st d) := rfl
@[simp] theorem respond_inputs (st : Status) (d : Half) (s : State) :
    (respond st d s).inputs = s.inputs := rfl
@[simp] theorem respond_turn (st : Status) (d : Half) (s : State) : (respond st d s).turn = s.turn := rfl

@[simp] theorem silent_params (s : State) : (silent s).params = s.params := rfl
@[simp] theorem silent_cnt (s : State) : (silent s).cnt = s.cnt := rfl
@[simp] theorem silent_eng (s : State) : (silent s).eng = s.eng := rfl
@[simp] theorem silent_output (s : State) : (silent s).output = .silent := rfl
@[simp] theorem silent_inputs (s : State) : (silent s).inputs = s.inputs := rfl
@[simp] theorem silent_turn (s : State) : (silent s).turn = s.turn := rfl

@[simp] theorem emitMiso_params (v : Byte) (s : State) : (emitMiso v s).params = s.params := rfl
@[simp] theorem emitMiso_cnt (v : Byte) (s : State) : (emitMiso v s).cnt = s.cnt := rfl
@[simp] theorem emitMiso_eng (v : Byte) (s : State) : (emitMiso v s).eng = s.eng := rfl
@[simp] theorem emitMiso_output (v : Byte) (s : State) : (emitMiso v s).output = .miso v := rfl
@[simp] theorem emitMiso_inputs (v : Byte) (s : State) : (emitMiso v s).inputs = s.inputs := rfl
@[simp] theorem emitMiso_turn (v : Byte) (s : State) : (emitMiso v s).turn = s.turn := rfl

/-! The counter half. -/

@[simp] theorem CounterHalf.underflowEvent_cntValue (c : CounterHalf) :
    (c.underflowEvent).cntValue = c.cntValue := rfl
@[simp] theorem CounterHalf.underflowEvent_cntTop (c : CounterHalf) :
    (c.underflowEvent).cntTop = c.cntTop := rfl
@[simp] theorem CounterHalf.underflowEvent_cntDir (c : CounterHalf) :
    (c.underflowEvent).cntDir = c.cntDir := rfl
@[simp] theorem CounterHalf.underflowEvent_osr (c : CounterHalf) : (c.underflowEvent).osr = c.osr := rfl
@[simp] theorem CounterHalf.underflowEvent_edgeCnt (c : CounterHalf) :
    (c.underflowEvent).edgeCnt = c.edgeCnt := rfl
@[simp] theorem CounterHalf.underflowEvent_configured (c : CounterHalf) :
    (c.underflowEvent).configured = c.configured := rfl
@[simp] theorem CounterHalf.underflowEvent_cfgErr (c : CounterHalf) :
    (c.underflowEvent).cfgErr = c.cfgErr := rfl
@[simp] theorem CounterHalf.underflowEvent_ufPending (c : CounterHalf) :
    (c.underflowEvent).ufPending = true := rfl
@[simp] theorem CounterHalf.underflowEvent_ufIen (c : CounterHalf) : (c.underflowEvent).ufIen = c.ufIen := rfl
@[simp] theorem CounterHalf.underflowEvent_outLevel (c : CounterHalf) :
    (c.underflowEvent).outLevel = c.outLevel := rfl
@[simp] theorem CounterHalf.underflowEvent_draws (c : CounterHalf) : (c.underflowEvent).draws = c.draws := rfl

@[simp] theorem CounterHalf.takeUnderflowService_cntValue (c : CounterHalf) :
    (c.takeUnderflowService).cntValue = c.cntValue := rfl
@[simp] theorem CounterHalf.takeUnderflowService_cntTop (c : CounterHalf) :
    (c.takeUnderflowService).cntTop = c.cntTop := rfl
@[simp] theorem CounterHalf.takeUnderflowService_cntDir (c : CounterHalf) :
    (c.takeUnderflowService).cntDir = c.cntDir := rfl
@[simp] theorem CounterHalf.takeUnderflowService_osr (c : CounterHalf) :
    (c.takeUnderflowService).osr = c.osr := rfl
@[simp] theorem CounterHalf.takeUnderflowService_edgeCnt (c : CounterHalf) :
    (c.takeUnderflowService).edgeCnt = c.edgeCnt := rfl
@[simp] theorem CounterHalf.takeUnderflowService_configured (c : CounterHalf) :
    (c.takeUnderflowService).configured = c.configured := rfl
@[simp] theorem CounterHalf.takeUnderflowService_cfgErr (c : CounterHalf) :
    (c.takeUnderflowService).cfgErr = c.cfgErr := rfl
@[simp] theorem CounterHalf.takeUnderflowService_ufPending (c : CounterHalf) :
    (c.takeUnderflowService).ufPending = false := rfl
@[simp] theorem CounterHalf.takeUnderflowService_ufIen (c : CounterHalf) :
    (c.takeUnderflowService).ufIen = c.ufIen := rfl
@[simp] theorem CounterHalf.takeUnderflowService_outLevel (c : CounterHalf) :
    (c.takeUnderflowService).outLevel = !c.outLevel := rfl
@[simp] theorem CounterHalf.takeUnderflowService_draws (c : CounterHalf) :
    (c.takeUnderflowService).draws = c.draws := rfl

@[simp] theorem CounterHalf.afterRst_cntValue (c : CounterHalf) :
    (c.afterRst).cntValue = Config.counterHalf c.draws := rfl
@[simp] theorem CounterHalf.afterRst_cntTop (c : CounterHalf) :
    (c.afterRst).cntTop = Config.counterHalf (c.draws + 1) := rfl
@[simp] theorem CounterHalf.afterRst_cntDir (c : CounterHalf) :
    (c.afterRst).cntDir = Direction.ofBit (Config.counterBit (c.draws + 2)) := rfl
@[simp] theorem CounterHalf.afterRst_osr (c : CounterHalf) :
    (c.afterRst).osr = Config.counterByte (c.draws + 3) := rfl
@[simp] theorem CounterHalf.afterRst_edgeCnt (c : CounterHalf) : (c.afterRst).edgeCnt = 0 := rfl
@[simp] theorem CounterHalf.afterRst_configured (c : CounterHalf) : (c.afterRst).configured = false := rfl
@[simp] theorem CounterHalf.afterRst_cfgErr (c : CounterHalf) : (c.afterRst).cfgErr = false := rfl
@[simp] theorem CounterHalf.afterRst_ufPending (c : CounterHalf) : (c.afterRst).ufPending = false := rfl
@[simp] theorem CounterHalf.afterRst_ufIen (c : CounterHalf) : (c.afterRst).ufIen = false := rfl
@[simp] theorem CounterHalf.afterRst_outLevel (c : CounterHalf) : (c.afterRst).outLevel = false := rfl
@[simp] theorem CounterHalf.afterRst_draws (c : CounterHalf) : (c.afterRst).draws = c.draws + 4 := rfl

/-! The engine half. -/

@[simp] theorem EngineHalf.putTx_rxBuf (cap : Nat) (b : Byte) (e : EngineHalf) :
    (e.putTx cap b).rxBuf = e.rxBuf := rfl
@[simp] theorem EngineHalf.putTx_txBuf (cap : Nat) (b : Byte) (e : EngineHalf) :
    (e.putTx cap b).txBuf = e.txBuf.write e.txWr b := rfl
@[simp] theorem EngineHalf.putTx_rxWr (cap : Nat) (b : Byte) (e : EngineHalf) :
    (e.putTx cap b).rxWr = e.rxWr := rfl
@[simp] theorem EngineHalf.putTx_rxRd (cap : Nat) (b : Byte) (e : EngineHalf) :
    (e.putTx cap b).rxRd = e.rxRd := rfl
@[simp] theorem EngineHalf.putTx_txWr (cap : Nat) (b : Byte) (e : EngineHalf) :
    (e.putTx cap b).txWr = advance cap e.txWr := rfl
@[simp] theorem EngineHalf.putTx_txRd (cap : Nat) (b : Byte) (e : EngineHalf) :
    (e.putTx cap b).txRd = e.txRd := rfl
@[simp] theorem EngineHalf.putTx_rxSlot (cap : Nat) (b : Byte) (e : EngineHalf) :
    (e.putTx cap b).rxSlot = e.rxSlot := rfl
@[simp] theorem EngineHalf.putTx_rxFull (cap : Nat) (b : Byte) (e : EngineHalf) :
    (e.putTx cap b).rxFull = e.rxFull := rfl
@[simp] theorem EngineHalf.putTx_txSlot (cap : Nat) (b : Byte) (e : EngineHalf) :
    (e.putTx cap b).txSlot = e.txSlot := rfl
@[simp] theorem EngineHalf.putTx_txFull (cap : Nat) (b : Byte) (e : EngineHalf) :
    (e.putTx cap b).txFull = e.txFull := rfl
@[simp] theorem EngineHalf.putTx_engEn (cap : Nat) (b : Byte) (e : EngineHalf) :
    (e.putTx cap b).engEn = e.engEn := rfl
@[simp] theorem EngineHalf.putTx_engPhase (cap : Nat) (b : Byte) (e : EngineHalf) :
    (e.putTx cap b).engPhase = e.engPhase := rfl
@[simp] theorem EngineHalf.putTx_draws (cap : Nat) (b : Byte) (e : EngineHalf) :
    (e.putTx cap b).draws = e.draws := rfl
@[simp] theorem EngineHalf.putTx_fill (cap : Nat) (b : Byte) (e : EngineHalf) :
    (e.putTx cap b).fill = e.fill := rfl

@[simp] theorem EngineHalf.passRx_rxBuf (cap : Nat) (e : EngineHalf) : (e.passRx cap).rxBuf = e.rxBuf := rfl
@[simp] theorem EngineHalf.passRx_txBuf (cap : Nat) (e : EngineHalf) : (e.passRx cap).txBuf = e.txBuf := rfl
@[simp] theorem EngineHalf.passRx_rxWr (cap : Nat) (e : EngineHalf) : (e.passRx cap).rxWr = e.rxWr := rfl
@[simp] theorem EngineHalf.passRx_rxRd (cap : Nat) (e : EngineHalf) :
    (e.passRx cap).rxRd = advance cap e.rxRd := rfl
@[simp] theorem EngineHalf.passRx_txWr (cap : Nat) (e : EngineHalf) : (e.passRx cap).txWr = e.txWr := rfl
@[simp] theorem EngineHalf.passRx_txRd (cap : Nat) (e : EngineHalf) : (e.passRx cap).txRd = e.txRd := rfl
@[simp] theorem EngineHalf.passRx_rxSlot (cap : Nat) (e : EngineHalf) :
    (e.passRx cap).rxSlot = e.rxSlot := rfl
@[simp] theorem EngineHalf.passRx_rxFull (cap : Nat) (e : EngineHalf) :
    (e.passRx cap).rxFull = e.rxFull := rfl
@[simp] theorem EngineHalf.passRx_txSlot (cap : Nat) (e : EngineHalf) :
    (e.passRx cap).txSlot = e.txSlot := rfl
@[simp] theorem EngineHalf.passRx_txFull (cap : Nat) (e : EngineHalf) :
    (e.passRx cap).txFull = e.txFull := rfl
@[simp] theorem EngineHalf.passRx_engEn (cap : Nat) (e : EngineHalf) : (e.passRx cap).engEn = e.engEn := rfl
@[simp] theorem EngineHalf.passRx_engPhase (cap : Nat) (e : EngineHalf) :
    (e.passRx cap).engPhase = e.engPhase := rfl
@[simp] theorem EngineHalf.passRx_draws (cap : Nat) (e : EngineHalf) : (e.passRx cap).draws = e.draws := rfl
@[simp] theorem EngineHalf.passRx_fill (cap : Nat) (e : EngineHalf) : (e.passRx cap).fill = e.fill := rfl

@[simp] theorem EngineHalf.storeRx_rxBuf (cap : Nat) (e : EngineHalf) :
    (e.storeRx cap).rxBuf = e.rxBuf.write e.rxWr e.rxSlot := rfl
@[simp] theorem EngineHalf.storeRx_txBuf (cap : Nat) (e : EngineHalf) : (e.storeRx cap).txBuf = e.txBuf := rfl
@[simp] theorem EngineHalf.storeRx_rxWr (cap : Nat) (e : EngineHalf) :
    (e.storeRx cap).rxWr = advance cap e.rxWr := rfl
@[simp] theorem EngineHalf.storeRx_rxRd (cap : Nat) (e : EngineHalf) : (e.storeRx cap).rxRd = e.rxRd := rfl
@[simp] theorem EngineHalf.storeRx_txWr (cap : Nat) (e : EngineHalf) : (e.storeRx cap).txWr = e.txWr := rfl
@[simp] theorem EngineHalf.storeRx_txRd (cap : Nat) (e : EngineHalf) : (e.storeRx cap).txRd = e.txRd := rfl
@[simp] theorem EngineHalf.storeRx_rxSlot (cap : Nat) (e : EngineHalf) :
    (e.storeRx cap).rxSlot = e.rxSlot := rfl
@[simp] theorem EngineHalf.storeRx_rxFull (cap : Nat) (e : EngineHalf) :
    (e.storeRx cap).rxFull = e.rxFull := rfl
@[simp] theorem EngineHalf.storeRx_txSlot (cap : Nat) (e : EngineHalf) :
    (e.storeRx cap).txSlot = e.txSlot := rfl
@[simp] theorem EngineHalf.storeRx_txFull (cap : Nat) (e : EngineHalf) :
    (e.storeRx cap).txFull = e.txFull := rfl
@[simp] theorem EngineHalf.storeRx_engEn (cap : Nat) (e : EngineHalf) : (e.storeRx cap).engEn = e.engEn := rfl
@[simp] theorem EngineHalf.storeRx_engPhase (cap : Nat) (e : EngineHalf) :
    (e.storeRx cap).engPhase = e.engPhase := rfl
@[simp] theorem EngineHalf.storeRx_draws (cap : Nat) (e : EngineHalf) : (e.storeRx cap).draws = e.draws := rfl
@[simp] theorem EngineHalf.storeRx_fill (cap : Nat) (e : EngineHalf) : (e.storeRx cap).fill = e.fill := rfl

@[simp] theorem EngineHalf.loadTx_rxBuf (cap : Nat) (e : EngineHalf) : (e.loadTx cap).rxBuf = e.rxBuf := rfl
@[simp] theorem EngineHalf.loadTx_txBuf (cap : Nat) (e : EngineHalf) : (e.loadTx cap).txBuf = e.txBuf := rfl
@[simp] theorem EngineHalf.loadTx_rxWr (cap : Nat) (e : EngineHalf) : (e.loadTx cap).rxWr = e.rxWr := rfl
@[simp] theorem EngineHalf.loadTx_rxRd (cap : Nat) (e : EngineHalf) : (e.loadTx cap).rxRd = e.rxRd := rfl
@[simp] theorem EngineHalf.loadTx_txWr (cap : Nat) (e : EngineHalf) : (e.loadTx cap).txWr = e.txWr := rfl
@[simp] theorem EngineHalf.loadTx_txRd (cap : Nat) (e : EngineHalf) :
    (e.loadTx cap).txRd = advance cap e.txRd := rfl
@[simp] theorem EngineHalf.loadTx_rxSlot (cap : Nat) (e : EngineHalf) :
    (e.loadTx cap).rxSlot = e.rxSlot := rfl
@[simp] theorem EngineHalf.loadTx_rxFull (cap : Nat) (e : EngineHalf) :
    (e.loadTx cap).rxFull = e.rxFull := rfl
@[simp] theorem EngineHalf.loadTx_txSlot (cap : Nat) (e : EngineHalf) :
    (e.loadTx cap).txSlot = e.memRead .tx e.txRd := rfl
@[simp] theorem EngineHalf.loadTx_txFull (cap : Nat) (e : EngineHalf) : (e.loadTx cap).txFull = true := rfl
@[simp] theorem EngineHalf.loadTx_engEn (cap : Nat) (e : EngineHalf) : (e.loadTx cap).engEn = e.engEn := rfl
@[simp] theorem EngineHalf.loadTx_engPhase (cap : Nat) (e : EngineHalf) :
    (e.loadTx cap).engPhase = e.engPhase := rfl
@[simp] theorem EngineHalf.loadTx_draws (cap : Nat) (e : EngineHalf) : (e.loadTx cap).draws = e.draws := rfl
@[simp] theorem EngineHalf.loadTx_fill (cap : Nat) (e : EngineHalf) : (e.loadTx cap).fill = e.fill := rfl

@[simp] theorem EngineHalf.preloadTx_rxBuf (e : EngineHalf) : (e.preloadTx).rxBuf = e.rxBuf := rfl
@[simp] theorem EngineHalf.preloadTx_txBuf (e : EngineHalf) : (e.preloadTx).txBuf = e.txBuf := rfl
@[simp] theorem EngineHalf.preloadTx_rxWr (e : EngineHalf) : (e.preloadTx).rxWr = e.rxWr := rfl
@[simp] theorem EngineHalf.preloadTx_rxRd (e : EngineHalf) : (e.preloadTx).rxRd = e.rxRd := rfl
@[simp] theorem EngineHalf.preloadTx_txWr (e : EngineHalf) : (e.preloadTx).txWr = e.txWr := rfl
@[simp] theorem EngineHalf.preloadTx_txRd (e : EngineHalf) : (e.preloadTx).txRd = e.txRd := rfl
@[simp] theorem EngineHalf.preloadTx_rxSlot (e : EngineHalf) : (e.preloadTx).rxSlot = e.rxSlot := rfl
@[simp] theorem EngineHalf.preloadTx_rxFull (e : EngineHalf) : (e.preloadTx).rxFull = e.rxFull := rfl
@[simp] theorem EngineHalf.preloadTx_txSlot (e : EngineHalf) : (e.preloadTx).txSlot = e.memRead .tx 0 := rfl
@[simp] theorem EngineHalf.preloadTx_txFull (e : EngineHalf) : (e.preloadTx).txFull = true := rfl
@[simp] theorem EngineHalf.preloadTx_engEn (e : EngineHalf) : (e.preloadTx).engEn = e.engEn := rfl
@[simp] theorem EngineHalf.preloadTx_engPhase (e : EngineHalf) : (e.preloadTx).engPhase = e.engPhase := rfl
@[simp] theorem EngineHalf.preloadTx_draws (e : EngineHalf) : (e.preloadTx).draws = e.draws := rfl
@[simp] theorem EngineHalf.preloadTx_fill (e : EngineHalf) : (e.preloadTx).fill = e.fill := rfl

@[simp] theorem EngineHalf.exchange_rxBuf (p : Config.OverrunPolicy) (m : Byte) (e : EngineHalf) :
    (e.exchange p m).rxBuf = e.rxBuf := rfl
@[simp] theorem EngineHalf.exchange_txBuf (p : Config.OverrunPolicy) (m : Byte) (e : EngineHalf) :
    (e.exchange p m).txBuf = e.txBuf := rfl
@[simp] theorem EngineHalf.exchange_rxWr (p : Config.OverrunPolicy) (m : Byte) (e : EngineHalf) :
    (e.exchange p m).rxWr = e.rxWr := rfl
@[simp] theorem EngineHalf.exchange_rxRd (p : Config.OverrunPolicy) (m : Byte) (e : EngineHalf) :
    (e.exchange p m).rxRd = e.rxRd := rfl
@[simp] theorem EngineHalf.exchange_txWr (p : Config.OverrunPolicy) (m : Byte) (e : EngineHalf) :
    (e.exchange p m).txWr = e.txWr := rfl
@[simp] theorem EngineHalf.exchange_txRd (p : Config.OverrunPolicy) (m : Byte) (e : EngineHalf) :
    (e.exchange p m).txRd = e.txRd := rfl
@[simp] theorem EngineHalf.exchange_rxSlot (p : Config.OverrunPolicy) (m : Byte) (e : EngineHalf) :
    (e.exchange p m).rxSlot = if e.rxFull then e.overrunByte p m else m := rfl
@[simp] theorem EngineHalf.exchange_rxFull (p : Config.OverrunPolicy) (m : Byte) (e : EngineHalf) :
    (e.exchange p m).rxFull = true := rfl
@[simp] theorem EngineHalf.exchange_txSlot (p : Config.OverrunPolicy) (m : Byte) (e : EngineHalf) :
    (e.exchange p m).txSlot = e.txSlot := rfl
@[simp] theorem EngineHalf.exchange_txFull (p : Config.OverrunPolicy) (m : Byte) (e : EngineHalf) :
    (e.exchange p m).txFull = false := rfl
@[simp] theorem EngineHalf.exchange_engEn (p : Config.OverrunPolicy) (m : Byte) (e : EngineHalf) :
    (e.exchange p m).engEn = e.engEn := rfl
@[simp] theorem EngineHalf.exchange_engPhase (p : Config.OverrunPolicy) (m : Byte) (e : EngineHalf) :
    (e.exchange p m).engPhase = e.engPhase := rfl
@[simp] theorem EngineHalf.exchange_draws (p : Config.OverrunPolicy) (m : Byte) (e : EngineHalf) :
    (e.exchange p m).draws = e.draws + 2 := rfl
@[simp] theorem EngineHalf.exchange_fill (p : Config.OverrunPolicy) (m : Byte) (e : EngineHalf) :
    (e.exchange p m).fill = e.fill := rfl

@[simp] theorem EngineHalf.exchangeIgnored_rxBuf (e : EngineHalf) : (e.exchangeIgnored).rxBuf = e.rxBuf := rfl
@[simp] theorem EngineHalf.exchangeIgnored_txBuf (e : EngineHalf) : (e.exchangeIgnored).txBuf = e.txBuf := rfl
@[simp] theorem EngineHalf.exchangeIgnored_rxWr (e : EngineHalf) : (e.exchangeIgnored).rxWr = e.rxWr := rfl
@[simp] theorem EngineHalf.exchangeIgnored_rxRd (e : EngineHalf) : (e.exchangeIgnored).rxRd = e.rxRd := rfl
@[simp] theorem EngineHalf.exchangeIgnored_txWr (e : EngineHalf) : (e.exchangeIgnored).txWr = e.txWr := rfl
@[simp] theorem EngineHalf.exchangeIgnored_txRd (e : EngineHalf) : (e.exchangeIgnored).txRd = e.txRd := rfl
@[simp] theorem EngineHalf.exchangeIgnored_rxSlot (e : EngineHalf) :
    (e.exchangeIgnored).rxSlot = e.rxSlot := rfl
@[simp] theorem EngineHalf.exchangeIgnored_rxFull (e : EngineHalf) :
    (e.exchangeIgnored).rxFull = e.rxFull := rfl
@[simp] theorem EngineHalf.exchangeIgnored_txSlot (e : EngineHalf) :
    (e.exchangeIgnored).txSlot = e.txSlot := rfl
@[simp] theorem EngineHalf.exchangeIgnored_txFull (e : EngineHalf) :
    (e.exchangeIgnored).txFull = e.txFull := rfl
@[simp] theorem EngineHalf.exchangeIgnored_engEn (e : EngineHalf) : (e.exchangeIgnored).engEn = e.engEn := rfl
@[simp] theorem EngineHalf.exchangeIgnored_engPhase (e : EngineHalf) :
    (e.exchangeIgnored).engPhase = e.engPhase := rfl
@[simp] theorem EngineHalf.exchangeIgnored_draws (e : EngineHalf) :
    (e.exchangeIgnored).draws = e.draws + 1 := rfl
@[simp] theorem EngineHalf.exchangeIgnored_fill (e : EngineHalf) : (e.exchangeIgnored).fill = e.fill := rfl

@[simp] theorem EngineHalf.afterRst_rxBuf (cap : Nat) (e : EngineHalf) : (e.afterRst cap).rxBuf = [] := rfl
@[simp] theorem EngineHalf.afterRst_txBuf (cap : Nat) (e : EngineHalf) : (e.afterRst cap).txBuf = [] := rfl
@[simp] theorem EngineHalf.afterRst_rxWr (cap : Nat) (e : EngineHalf) : (e.afterRst cap).rxWr = 0 := rfl
@[simp] theorem EngineHalf.afterRst_rxRd (cap : Nat) (e : EngineHalf) : (e.afterRst cap).rxRd = 0 := rfl
@[simp] theorem EngineHalf.afterRst_txWr (cap : Nat) (e : EngineHalf) : (e.afterRst cap).txWr = 0 := rfl
@[simp] theorem EngineHalf.afterRst_txRd (cap : Nat) (e : EngineHalf) : (e.afterRst cap).txRd = 1 % cap := rfl
@[simp] theorem EngineHalf.afterRst_rxSlot (cap : Nat) (e : EngineHalf) :
    (e.afterRst cap).rxSlot = Config.engineByte e.draws := rfl
@[simp] theorem EngineHalf.afterRst_rxFull (cap : Nat) (e : EngineHalf) :
    (e.afterRst cap).rxFull = false := rfl
@[simp] theorem EngineHalf.afterRst_txSlot (cap : Nat) (e : EngineHalf) :
    (e.afterRst cap).txSlot = Config.engineByte (e.draws + 1) := rfl
@[simp] theorem EngineHalf.afterRst_txFull (cap : Nat) (e : EngineHalf) :
    (e.afterRst cap).txFull = false := rfl
@[simp] theorem EngineHalf.afterRst_engEn (cap : Nat) (e : EngineHalf) : (e.afterRst cap).engEn = false := rfl
@[simp] theorem EngineHalf.afterRst_engPhase (cap : Nat) (e : EngineHalf) :
    (e.afterRst cap).engPhase = .waitRx := rfl
@[simp] theorem EngineHalf.afterRst_draws (cap : Nat) (e : EngineHalf) :
    (e.afterRst cap).draws = e.draws + 2 := rfl
@[simp] theorem EngineHalf.afterRst_fill (cap : Nat) (e : EngineHalf) :
    (e.afterRst cap).fill = e.fill + 1 := rfl

end Sys2Proof.Machine
end

