-- ==== Sys2Proof/Laws/Memory.lean ====
section
/-! SUPPORT. The laws of byte memory: read after write, the canonical form, the bounds. -/

namespace Sys2Proof.Machine

@[simp] theorem Memory.unlisted_eq : Memory.unlisted = none := rfl

@[simp] theorem Memory.read_nil (i : Nat) : Memory.read [] i = none := rfl

theorem Memory.read_write_same (m : Memory) (i : Nat) (v : Byte) : (m.write i v).read i = some v := by
  induction m with
  | nil => simp [Memory.write, Memory.read]
  | cons c m ih =>
    obtain ⟨a, b⟩ := c
    unfold Memory.write
    split_ifs with h1 h2
    · simp [Memory.read]
    · simp [Memory.read]
    · simp [Memory.read, Ne.symm h2, ih]

theorem Memory.read_write_other (m : Memory) {i j : Nat} (v : Byte) (h : j ≠ i) :
    (m.write i v).read j = m.read j := by
  induction m with
  | nil => simp [Memory.write, Memory.read, h.symm]
  | cons c m ih =>
    obtain ⟨a, b⟩ := c
    unfold Memory.write
    split_ifs with h1 h2
    · simp [Memory.read, h.symm]
    · subst h2; simp [Memory.read, h.symm]
    · simp [Memory.read, ih]

/-- A write makes its own cell readable and leaves every other cell alone. -/
theorem Memory.read_write (m : Memory) (i j : Nat) (v : Byte) :
    (m.write i v).read j = if j = i then some v else m.read j := by
  split_ifs with h
  · rw [h, Memory.read_write_same]
  · exact Memory.read_write_other m v h

/-- A property of the written address and of every listed address holds of every address after the write. -/
theorem Memory.all_write (q : Nat → Bool) (m : Memory) (i : Nat) (v : Byte) (hi : q i = true)
    (hm : m.all (fun c => q c.1) = true) : (m.write i v).all (fun c => q c.1) = true := by
  induction m with
  | nil => simp [Memory.write, hi]
  | cons c m ih =>
    obtain ⟨a, b⟩ := c
    simp only [List.all_cons, Bool.and_eq_true] at hm
    unfold Memory.write
    split_ifs with h1 h2
    · simpa [hi] using hm
    · subst h2; simpa [hi] using hm.2
    · simp only [List.all_cons, Bool.and_eq_true]
      exact ⟨hm.1, ih hm.2⟩

/-- A write keeps the canonical form. -/
theorem Memory.wf_write (m : Memory) (i : Nat) (v : Byte) (h : m.wf = true) : (m.write i v).wf = true := by
  induction m with
  | nil => rfl
  | cons c m ih =>
    obtain ⟨a, b⟩ := c
    simp only [Memory.wf, Bool.and_eq_true] at h
    unfold Memory.write
    split_ifs with h1 h2
    · simp only [Memory.wf, Bool.and_eq_true, List.all_cons, decide_eq_true_eq]
      refine ⟨⟨h1, ?_⟩, h⟩
      have := h.1
      simp only [List.all_eq_true, decide_eq_true_eq] at this ⊢
      intro c hc
      have := this c hc
      omega
    · subst h2; simpa [Memory.wf] using h
    · simp only [Memory.wf, Bool.and_eq_true]
      exact ⟨Memory.all_write (fun k => decide (a < k)) m i v (by simp; omega) h.1, ih h.2⟩

/-- A write inside the space keeps the memory inside it. -/
theorem Memory.within_write (cap : Nat) (m : Memory) (i : Nat) (v : Byte) (hi : i < cap)
    (h : m.within cap = true) : (m.write i v).within cap = true :=
  Memory.all_write (fun k => decide (k < cap)) m i v (by simpa using hi) h

/-- Two canonical memories with the same bytes are the same data. -/
theorem Memory.ext_of_wf (m m' : Memory) (h : m.wf = true) (h' : m'.wf = true)
    (hr : ∀ i, m.read i = m'.read i) : m = m' := by
  have below : ∀ (m : Memory) (i : Nat), m.all (fun c => decide (i < c.1)) = true → m.read i = none := by
    intro m i hm
    induction m with
    | nil => rfl
    | cons c m ih =>
      obtain ⟨a, b⟩ := c
      simp only [List.all_cons, Bool.and_eq_true, decide_eq_true_eq] at hm
      have : a ≠ i := by omega
      simp [Memory.read, this, ih hm.2]
  induction m generalizing m' with
  | nil =>
    cases m' with
    | nil => rfl
    | cons c m' =>
      obtain ⟨a, b⟩ := c
      have := hr a
      simp [Memory.read] at this
  | cons c m ih =>
    obtain ⟨a, b⟩ := c
    cases m' with
    | nil =>
      have := hr a
      simp [Memory.read] at this
    | cons c' m' =>
      obtain ⟨a', b'⟩ := c'
      simp only [Memory.wf, Bool.and_eq_true] at h h'
      have hlow : ∀ {x : Nat} {n : Memory}, n.all (fun c => decide (x < c.1)) = true →
          ∀ y, y ≤ x → n.all (fun c => decide (y < c.1)) = true := by
        intro x n hn y hy
        simp only [List.all_eq_true, decide_eq_true_eq] at hn ⊢
        intro c hc
        exact lt_of_le_of_lt hy (hn c hc)
      have haa : a = a' := by
        rcases Nat.lt_trichotomy a a' with hlt | heq | hgt
        · have h1 := hr a
          have hne : a' ≠ a := by omega
          simp [Memory.read, hne, below m' a (hlow h'.1 a (by omega))] at h1
        · exact heq
        · have h1 := hr a'
          have hne : a ≠ a' := by omega
          simp [Memory.read, hne, below m a' (hlow h.1 a' (by omega))] at h1
      subst haa
      have hb : b = b' := by
        have h1 := hr a
        simpa [Memory.read] using h1
      subst hb
      congr 1
      refine ih m' h.2 h'.2 (fun i => ?_)
      by_cases hi : a = i
      · subst hi
        rw [below m a h.1, below m' a h'.1]
      · have h1 := hr i
        simpa [Memory.read, hi] using h1

/-! The buffers, read through `MemRead`. -/

theorem EngineHalf.memRead_putTx (cap : Nat) (b : Byte) (e : EngineHalf) (i : Nat) :
    (e.putTx cap b).memRead .tx i = if i = e.txWr then b else e.memRead .tx i := by
  simp only [EngineHalf.memRead, EngineHalf.buf, EngineHalf.putTx_txBuf, EngineHalf.putTx_fill,
    Memory.read_write]
  split_ifs <;> rfl

theorem EngineHalf.memRead_storeRx (cap : Nat) (e : EngineHalf) (i : Nat) :
    (e.storeRx cap).memRead .rx i = if i = e.rxWr then e.rxSlot else e.memRead .rx i := by
  simp only [EngineHalf.memRead, EngineHalf.buf, EngineHalf.storeRx_rxBuf, EngineHalf.storeRx_fill,
    Memory.read_write]
  split_ifs <;> rfl

theorem EngineHalf.memRead_tx_congr {e e' : EngineHalf} (hb : e'.txBuf = e.txBuf) (hf : e'.fill = e.fill)
    (i : Nat) : e'.memRead .tx i = e.memRead .tx i := by
  simp [EngineHalf.memRead, EngineHalf.buf, hb, hf]

theorem EngineHalf.memRead_rx_congr {e e' : EngineHalf} (hb : e'.rxBuf = e.rxBuf) (hf : e'.fill = e.fill)
    (i : Nat) : e'.memRead .rx i = e.memRead .rx i := by
  simp [EngineHalf.memRead, EngineHalf.buf, hb, hf]

/-! The index arithmetic (20_memory R72). -/

theorem advance_lt {cap : Nat} (i : Nat) (h : 1 ≤ cap) : advance cap i < cap := Nat.mod_lt _ h

theorem advance_of_lt {cap i : Nat} (h : i + 1 < cap) : advance cap i = i + 1 := Nat.mod_eq_of_lt h

theorem advance_last {cap : Nat} (h : 1 ≤ cap) : advance cap (cap - 1) = 0 := by
  unfold advance
  rw [Nat.sub_add_cancel h, Nat.mod_self]

theorem advance_mod (cap n : Nat) : advance cap (n % cap) = (n + 1) % cap := by
  simp [advance]

end Sys2Proof.Machine
end

