-- ==== Sys2Proof/Laws/Dispatch.lean ====
section
/-! SUPPORT. What each shared operation can do, said once, and what `exec` is for each operation. -/

namespace Sys2Proof.Machine

/-! The operand check (40_counter R143). -/

theorem legalCfg_iff (top init : Half) (osr : Byte) :
    legalCfg top init osr = true ↔
      0 ≤ top.toInt ∧ 0 ≤ init.toInt ∧ init.toInt ≤ top.toInt ∧ 1 ≤ osr.toNat := by
  simp [legalCfg, and_assoc]

/-- A legal configuration keeps both readings of its halves in range. -/
theorem legalCfg_bounds {top init : Half} {osr : Byte} (h : legalCfg top init osr = true) :
    init.toNat ≤ top.toNat ∧ top.toNat ≤ Config.topMax ∧ 1 ≤ osr.toNat := by
  obtain ⟨h1, h2, h3, h4⟩ := (legalCfg_iff top init osr).mp h
  simp only [BitVec.toInt_eq_toNat_cond] at h1 h2 h3
  have ht := top.isLt
  have hi := init.isLt
  have hm : Config.topMax = 32767 := rfl
  split_ifs at h1 h2 h3 <;> omega

/-! The answers (30_encoding R104). -/

@[simp] theorem responseWord_data (st : Status) (d : Half) : (responseWord st d).extractLsb' 0 16 = d := by
  ext i hi
  simp [responseWord, show ¬ (24 ≤ i) by omega, show i < 32 by omega, hi, getElem_place]

@[simp] theorem responseWord_zero (st : Status) (d : Half) : (responseWord st d).extractLsb' 16 8 = 0#8 := by
  ext i hi
  simp [responseWord, getLsbD_place, show ¬ (24 ≤ 16 + i) by omega]

@[simp] theorem responseWord_status (st : Status) (d : Half) :
    (responseWord st d).extractLsb' 24 8 = st.code := by
  ext i hi
  simp [responseWord, getElem_place, show 24 + i < 32 by omega, BitVec.getLsbD_of_ge d (24 + i) (by omega), hi]

/-- An answer `OK` is the data, zero-extended. -/
@[simp] theorem responseWord_ok (d : Half) : responseWord .ok d = d.setWidth 32 := by
  ext i hi
  simp [responseWord, place, Status.code]

/-! The logical pulse and the raw edge (40_counter R147). -/

/-- Everything a logical pulse can do. -/
theorem CounterHalf.logicalPulse_cases (c : CounterHalf) :
    (c.cntDir = .down ∧ c.cntValue = 0 ∧ c.logicalPulse = { c with cntValue := c.cntTop, ufPending := true }) ∨
    (c.cntDir = .down ∧ c.cntValue ≠ 0 ∧ c.logicalPulse = { c with cntValue := c.cntValue - 1 }) ∨
    (c.cntDir = .up ∧ c.cntValue = c.cntTop ∧ c.logicalPulse = { c with cntValue := 0 }) ∨
    (c.cntDir = .up ∧ c.cntValue ≠ c.cntTop ∧ c.logicalPulse = { c with cntValue := c.cntValue + 1 }) := by
  unfold CounterHalf.logicalPulse
  cases hd : c.cntDir
  · by_cases h : c.cntValue = 0
    · exact .inl ⟨rfl, h, if_pos h⟩
    · exact .inr (.inl ⟨rfl, h, if_neg h⟩)
  · by_cases h : c.cntValue = c.cntTop
    · exact .inr (.inr (.inl ⟨rfl, h, if_pos h⟩))
    · exact .inr (.inr (.inr ⟨rfl, h, if_neg h⟩))

/-- Everything a raw edge can do. -/
theorem CounterHalf.rawEdge_cases (c : CounterHalf) :
    (c.configured = false ∧ c.rawEdge = c) ∨
    (c.configured = true ∧ c.edgeCnt.toNat + 1 < c.osr.toNat ∧
      c.rawEdge = { c with edgeCnt := c.edgeCnt + 1 }) ∨
    (c.configured = true ∧ c.osr.toNat ≤ c.edgeCnt.toNat + 1 ∧ c.cntDir = .down ∧ c.cntValue = 0 ∧
      c.rawEdge = { c with edgeCnt := 0, cntValue := c.cntTop, ufPending := true }) ∨
    (c.configured = true ∧ c.osr.toNat ≤ c.edgeCnt.toNat + 1 ∧ c.cntDir = .down ∧ c.cntValue ≠ 0 ∧
      c.rawEdge = { c with edgeCnt := 0, cntValue := c.cntValue - 1 }) ∨
    (c.configured = true ∧ c.osr.toNat ≤ c.edgeCnt.toNat + 1 ∧ c.cntDir = .up ∧ c.cntValue = c.cntTop ∧
      c.rawEdge = { c with edgeCnt := 0, cntValue := 0 }) ∨
    (c.configured = true ∧ c.osr.toNat ≤ c.edgeCnt.toNat + 1 ∧ c.cntDir = .up ∧ c.cntValue ≠ c.cntTop ∧
      c.rawEdge = { c with edgeCnt := 0, cntValue := c.cntValue + 1 }) := by
  unfold CounterHalf.rawEdge
  by_cases hc : c.configured = true
  · by_cases he : c.edgeCnt.toNat + 1 < c.osr.toNat
    · exact .inr (.inl ⟨hc, he, by rw [if_pos hc, if_pos he]⟩)
    · have he' : c.osr.toNat ≤ c.edgeCnt.toNat + 1 := by omega
      rw [if_pos hc, if_neg he]
      rcases CounterHalf.logicalPulse_cases { c with edgeCnt := 0 } with h | h | h | h
      · exact .inr (.inr (.inl ⟨hc, he', h⟩))
      · exact .inr (.inr (.inr (.inl ⟨hc, he', h⟩)))
      · exact .inr (.inr (.inr (.inr (.inl ⟨hc, he', h⟩))))
      · exact .inr (.inr (.inr (.inr (.inr ⟨hc, he', h⟩))))
  · exact .inl ⟨by simpa using hc, if_neg hc⟩

theorem CounterHalf.underflowDue_iff (c : CounterHalf) :
    c.underflowDue = true ↔
      c.configured = true ∧ c.osr.toNat ≤ c.edgeCnt.toNat + 1 ∧ c.cntDir = .down ∧ c.cntValue = 0 := by
  simp [CounterHalf.underflowDue, CounterHalf.pulseDue, and_assoc]

/-- The edge that underflows. -/
theorem CounterHalf.rawEdge_of_underflowDue {c : CounterHalf} (h : c.underflowDue = true) :
    c.rawEdge = { c with edgeCnt := 0, cntValue := c.cntTop, ufPending := true } := by
  obtain ⟨h1, h2, h3, h4⟩ := c.underflowDue_iff.mp h
  rcases c.rawEdge_cases with h | h | h | h | h | h
  · simp [h1] at h
  · omega
  · exact h.2.2.2.2
  · exact absurd h4 h.2.2.2.1
  · simp [h3] at h
  · simp [h3] at h

/-- An edge that does not underflow leaves the flag. -/
theorem CounterHalf.rawEdge_ufPending_of_not_due {c : CounterHalf} (h : c.underflowDue = false) :
    c.rawEdge.ufPending = c.ufPending := by
  rcases c.rawEdge_cases with ⟨-, e⟩ | ⟨-, -, e⟩ | ⟨h1, h2, h3, h4, -⟩ | ⟨-, -, -, -, e⟩ | ⟨-, -, -, -, e⟩ | ⟨-, -, -, -, e⟩
  case inr.inr.inl => exact absurd (c.underflowDue_iff.mpr ⟨h1, h2, h3, h4⟩) (by simp [h])
  all_goals rw [e]

/-- A raw edge changes nothing but the value, the edge count and, by setting it, `uf_pending`. -/
theorem CounterHalf.rawEdge_frame (c : CounterHalf) :
    c.rawEdge = { c with
      cntValue := c.rawEdge.cntValue, edgeCnt := c.rawEdge.edgeCnt
      ufPending := c.ufPending || c.underflowDue } := by
  have hu := c.underflowDue_iff
  rcases c.rawEdge_cases with ⟨h1, h⟩ | ⟨h1, h2, h⟩ | ⟨h1, h2, h3, h4, h⟩ | ⟨h1, h2, h3, h4, h⟩ |
    ⟨h1, h2, h3, h4, h⟩ | ⟨h1, h2, h3, h4, h⟩
  · have hd : c.underflowDue = false := by simpa [h1] using hu
    rw [h, hd, Bool.or_false]
  · have hd : c.underflowDue = false := by
      rw [Bool.eq_false_iff, ne_eq, hu]; omega
    rw [h, hd, Bool.or_false]
  · have hd : c.underflowDue = true := hu.mpr ⟨h1, h2, h3, h4⟩
    rw [h, hd, Bool.or_true]
  · have hd : c.underflowDue = false := by
      rw [Bool.eq_false_iff, ne_eq, hu]; tauto
    rw [h, hd, Bool.or_false]
  · have hd : c.underflowDue = false := by
      rw [Bool.eq_false_iff, ne_eq, hu, h3]; simp
    rw [h, hd, Bool.or_false]
  · have hd : c.underflowDue = false := by
      rw [Bool.eq_false_iff, ne_eq, hu, h3]; simp
    rw [h, hd, Bool.or_false]

/-! The guards. -/

theorem rxstGuard_iff (e : EngineHalf) : rxstGuard e = true ↔ e.engPhase = .waitRx ∧ e.rxFull = true := by
  simp [rxstGuard]

theorem txldGuard_iff (e : EngineHalf) : txldGuard e = true ↔ e.engPhase = .waitTx ∧ e.txFull = false := by
  simp [txldGuard]

theorem utlGuard_iff (c : CounterHalf) : utlGuard c = true ↔ c.ufPending = true ∧ c.ufIen = true := by
  simp [utlGuard, CounterHalf.irq]

/-! What `exec` is. -/

section
variable (s : State)

@[simp] theorem exec_cntCfg (top init : Half) (dir : Direction) (osr : Byte) :
    exec (.cntCfg top init dir osr) s = execCntCfg top init dir osr s := rfl
@[simp] theorem exec_cntRd : exec .cntRd s = execCntRd s := rfl
@[simp] theorem exec_irqEn : exec .irqEn s = execIrqEn s := rfl
@[simp] theorem exec_outSet (lvl : Bool) : exec (.outSet lvl) s = execOutSet lvl s := rfl
@[simp] theorem exec_statRd : exec .statRd s = execStatRd s := rfl
@[simp] theorem exec_txPut (b : Byte) : exec (.txPut b) s = execTxPut b s := rfl
@[simp] theorem exec_rxGet : exec .rxGet s = execRxGet s := rfl
@[simp] theorem exec_engPreload : exec .engPreload s = execEngPreload s := rfl
@[simp] theorem exec_engEn : exec .engEn s = execEngEn s := rfl
@[simp] theorem exec_edge : exec .edge s = execEdge s := rfl
@[simp] theorem exec_xchg (m : Byte) : exec (.xchg m) s = execXchg m s := rfl
@[simp] theorem exec_rst : exec .rst s = execRst s := rfl
@[simp] theorem exec_utlSvc : exec .utlSvc s = execUtlSvc s := rfl
@[simp] theorem exec_engRxst : exec .engRxst s = execEngRxst s := rfl
@[simp] theorem exec_engTxld : exec .engTxld s = execEngTxld s := rfl

end

/-! The inversions: what a next state of each operation is. -/

section
variable {s t : State}

theorem execCntCfg_next {top init : Half} {dir : Direction} {osr : Byte}
    (h : execCntCfg top init dir osr s = .next t) :
    ((s.cnt.configured = true ∨ s.cnt.cfgErr = true) ∧ t = respond .cfgRepeat 0 s) ∨
    (s.cnt.configured = false ∧ s.cnt.cfgErr = false ∧ legalCfg top init osr = true ∧
      t = respond .ok 0 { s with cnt := { s.cnt with
        cntTop := top, cntValue := init, cntDir := dir, osr := osr, edgeCnt := 0, configured := true } }) ∨
    (s.cnt.configured = false ∧ s.cnt.cfgErr = false ∧ legalCfg top init osr = false ∧
      t = respond .cfgRange 0 { s with cnt := { s.cnt with cfgErr := true } }) := by
  unfold execCntCfg refuse at h
  split_ifs at h with h1 h2 <;> simp only [Host.Outcome.next.injEq] at h <;> subst h
  · exact .inl ⟨by simpa using h1, rfl⟩
  · exact .inr (.inl ⟨by simp_all, by simp_all, h2, rfl⟩)
  · exact .inr (.inr ⟨by simp_all, by simp_all, by simpa using h2, rfl⟩)

theorem execCntRd_next (h : execCntRd s = .next t) :
    (s.cnt.configured = true ∧ t = respond .ok s.cnt.cntValue s) ∨
    (s.cnt.configured = false ∧ t = respond .ok (Config.counterHalf s.cnt.draws)
      { s with cnt := { s.cnt with draws := s.cnt.draws + 1 } }) := by
  unfold execCntRd at h
  split_ifs at h with h1 <;> simp only [Host.Outcome.next.injEq] at h <;> subst h
  · exact .inl ⟨h1, rfl⟩
  · exact .inr ⟨by simpa using h1, rfl⟩

theorem execIrqEn_next (h : execIrqEn s = .next t) :
    t = respond .ok 0 { s with cnt := { s.cnt with ufIen := true } } := by
  simpa [execIrqEn, eq_comm] using h

theorem execOutSet_next {lvl : Bool} (h : execOutSet lvl s = .next t) :
    (s.cnt.configured = true ∧ t = respond .badState 0 s) ∨
    (s.cnt.configured = false ∧ t = respond .ok 0 { s with cnt := { s.cnt with outLevel := lvl } }) := by
  unfold execOutSet refuse at h
  split_ifs at h with h1 <;> simp only [Host.Outcome.next.injEq] at h <;> subst h
  · exact .inl ⟨h1, rfl⟩
  · exact .inr ⟨by simpa using h1, rfl⟩

theorem execStatRd_next (h : execStatRd s = .next t) :
    (s.cnt.configured = true ∧ t = respond .ok (statWord s.cnt.cntDir.toBit s.cnt s.eng) s) ∨
    (s.cnt.configured = false ∧ t = respond .ok (statWord (Config.counterBit s.cnt.draws) s.cnt s.eng)
      { s with cnt := { s.cnt with draws := s.cnt.draws + 1 } }) := by
  unfold execStatRd at h
  split_ifs at h with h1 <;> simp only [Host.Outcome.next.injEq] at h <;> subst h
  · exact .inl ⟨h1, rfl⟩
  · exact .inr ⟨by simpa using h1, rfl⟩

theorem execTxPut_next {b : Byte} (h : execTxPut b s = .next t) :
    (s.eng.engEn = true ∧ t = respond .badState 0 s) ∨
    (s.eng.engEn = false ∧ t = respond .ok 0 { s with eng := s.eng.putTx s.params.cap b }) := by
  unfold execTxPut refuse at h
  split_ifs at h with h1 <;> simp only [Host.Outcome.next.injEq] at h <;> subst h
  · exact .inl ⟨h1, rfl⟩
  · exact .inr ⟨by simpa using h1, rfl⟩

theorem execRxGet_next (h : execRxGet s = .next t) :
    t = respond .ok ((s.eng.memRead .rx s.eng.rxRd).zeroExtend 16)
      { s with eng := s.eng.passRx s.params.cap } := by
  simpa [execRxGet, eq_comm] using h

theorem execEngPreload_next (h : execEngPreload s = .next t) :
    (s.eng.engEn = true ∧ t = respond .badState 0 s) ∨
    (s.eng.engEn = false ∧ t = respond .ok 0 { s with eng := s.eng.preloadTx }) := by
  unfold execEngPreload refuse at h
  split_ifs at h with h1 <;> simp only [Host.Outcome.next.injEq] at h <;> subst h
  · exact .inl ⟨h1, rfl⟩
  · exact .inr ⟨by simpa using h1, rfl⟩

theorem execEngEn_next (h : execEngEn s = .next t) :
    (s.eng.engEn = true ∧ t = respond .badState 0 s) ∨
    (s.eng.engEn = false ∧ t = respond .ok 0 { s with eng := { s.eng with engEn := true } }) := by
  unfold execEngEn refuse at h
  split_ifs at h with h1 <;> simp only [Host.Outcome.next.injEq] at h <;> subst h
  · exact .inl ⟨h1, rfl⟩
  · exact .inr ⟨by simpa using h1, rfl⟩

theorem execEdge_next (h : execEdge s = .next t) : t = silent { s with cnt := s.cnt.rawEdge } := by
  simpa [execEdge, eq_comm] using h

theorem execXchg_next {m : Byte} (h : execXchg m s = .next t) :
    (s.eng.engEn = true ∧
      t = emitMiso s.eng.misoByte { s with eng := s.eng.exchange s.params.overrun m }) ∨
    (s.eng.engEn = false ∧ t = emitMiso s.eng.misoByte { s with eng := s.eng.exchangeIgnored }) := by
  unfold execXchg at h
  split_ifs at h with h1 <;> simp only [Host.Outcome.next.injEq] at h <;> subst h
  · exact .inl ⟨h1, rfl⟩
  · exact .inr ⟨by simpa using h1, rfl⟩

theorem execRst_next (h : execRst s = .next t) :
    t = silent { s with cnt := s.cnt.afterRst, eng := s.eng.afterRst s.params.cap } := by
  simpa [execRst, eq_comm] using h

theorem execUtlSvc_next (h : execUtlSvc s = .next t) :
    (s.cnt.ufPending = true ∧ s.cnt.ufIen = true) ∧
      t = silent { s with cnt := s.cnt.takeUnderflowService } := by
  unfold execUtlSvc at h
  split_ifs at h with h1
  · simp only [Host.Outcome.next.injEq] at h
    exact ⟨(utlGuard_iff _).mp h1, h.symm⟩

theorem execEngRxst_next (h : execEngRxst s = .next t) :
    (s.eng.engPhase = .waitRx ∧ s.eng.rxFull = true) ∧
      t = silent { s with eng :=
        { s.eng.storeRx s.params.cap with rxFull := false, engPhase := .waitTx } } := by
  unfold execEngRxst at h
  split_ifs at h with h1
  · simp only [Host.Outcome.next.injEq] at h
    exact ⟨(rxstGuard_iff _).mp h1, h.symm⟩

theorem execEngTxld_next (h : execEngTxld s = .next t) :
    (s.eng.engPhase = .waitTx ∧ s.eng.txFull = false) ∧
      t = silent { s with eng := { s.eng.loadTx s.params.cap with engPhase := .waitRx } } := by
  unfold execEngTxld at h
  split_ifs at h with h1
  · simp only [Host.Outcome.next.injEq] at h
    exact ⟨(txldGuard_iff _).mp h1, h.symm⟩

end

/-! Traces. -/

@[simp] theorem execAll_nil (s : State) : execAll [] s = .next s := rfl

theorem execAll_cons_next {i : Instr} {is : List Instr} {s t : State} :
    execAll (i :: is) s = .next t ↔ ∃ u, exec i s = .next u ∧ execAll is u = .next t := by
  simp only [execAll]
  cases exec i s <;> simp

theorem execAll_append_next {is js : List Instr} {s t : State} :
    execAll (is ++ js) s = .next t ↔ ∃ u, execAll is s = .next u ∧ execAll js u = .next t := by
  induction is generalizing s with
  | nil => simp
  | cons i is ih =>
    simp only [List.cons_append, execAll_cons_next, ih]
    constructor
    · rintro ⟨u, h1, v, h2, h3⟩
      exact ⟨v, ⟨u, h1, h2⟩, h3⟩
    · rintro ⟨v, ⟨u, h1, h2⟩, h3⟩
      exact ⟨u, h1, v, h2, h3⟩

/-- Package an induction once: what every operation of a trace keeps, the trace keeps. -/
theorem execAll_keeps {P : State → Prop} {is : List Instr} {s t : State}
    (hstep : ∀ i ∈ is, ∀ u v, exec i u = .next v → P u → P v)
    (h : execAll is s = .next t) (hs : P s) : P t := by
  induction is generalizing s with
  | nil =>
    simp only [execAll_nil, Host.Outcome.next.injEq] at h
    exact h ▸ hs
  | cons i is ih =>
    obtain ⟨u, h1, h2⟩ := execAll_cons_next.mp h
    exact ih (fun j hj => hstep j (List.mem_cons_of_mem _ hj)) h2
      (hstep i (List.mem_cons_self ..) s u h1 hs)

end Sys2Proof.Machine
end

