-- ==== Sys2Proof/Laws/Delivery.lean ====
section
/-! SUPPORT. What a step of the machine can do, said once: the delivery of a word, the step of a core left alone, and the
host's run as a chain of steps. -/

namespace Sys2Proof.Machine

/-! The host's run. -/

theorem core_run_zero (s : State) : core.run 0 s = .next s := rfl

theorem core_run_succ_next (n : Nat) {s t : State} (h : step s = .next t) :
    core.run (n + 1) s = core.run n t := by
  have h' : core.step s = .next t := h
  simp only [Host.Core.run, h']

theorem core_run_succ_fault (n : Nat) {s : State} {r : Fault} (h : step s = .fault r) :
    core.run (n + 1) s = .fault r := by
  have h' : core.step s = .fault r := h
  simp only [Host.Core.run, h']

theorem core_run_succ_refused (n : Nat) {s : State} {r : Refusal} (h : step s = .refused r) :
    core.run (n + 1) s = .refused r := by
  have h' : core.step s = .refused r := h
  simp only [Host.Core.run, h']

/-! The verdict on a word. -/

theorem wellFormed_host_iff (i : Instr) : i.wellFormed .host = true ↔ i.issuer = .host := by
  simp [Instr.wellFormed, port_eq_host_iff]

theorem wellFormed_trace_iff (i : Instr) : i.wellFormed .trace = true ↔ i.issuer ≠ .host := by
  rw [← not_iff_not, not_not, ← port_eq_host_iff]
  simp only [Instr.wellFormed, beq_iff_eq]
  cases i.port <;> simp

theorem verdict_run {a : Arrival} {i : Instr} (h : decode a.word = .ok i) (hw : i.wellFormed a.port = true) :
    verdict a = .run i := by
  simp [verdict, h, hw]

/-- A word that spells nothing its port admits is rejected. -/
theorem verdict_rejected {a : Arrival} (h : ∀ i, decode a.word = .ok i → i.wellFormed a.port = false) :
    verdict a = rejected a.port := by
  unfold verdict
  cases hd : decode a.word with
  | error e => rfl
  | ok i => simp [h i hd]

/-! What an operation does not look at. -/

/-- No operation reads or changes the waiting arrivals. -/
theorem exec_inputs (i : Instr) (s : State) (q : List Arrival) :
    exec i { s with inputs := q } =
      match exec i s with
      | .next t => .next { t with inputs := q }
      | .fault r => .fault r
      | .refused r => .refused r := by
  cases i <;> simp only [exec_cntCfg, exec_cntRd, exec_irqEn, exec_outSet, exec_statRd, exec_txPut, exec_rxGet,
    exec_engPreload, exec_engEn, exec_edge, exec_xchg, exec_rst, exec_utlSvc, exec_engRxst, exec_engTxld,
    execCntCfg, execCntRd, execIrqEn, execOutSet, execStatRd, execTxPut, execRxGet, execEngPreload, execEngEn,
    execEdge, execXchg, execRst, execUtlSvc, execEngRxst, execEngTxld, refuse] <;>
    (try split_ifs) <;> rfl

/-! The core left alone. -/

theorem sequencerChoice_none_iff (e : EngineHalf) :
    sequencerChoice e = none ↔ rxstGuard e = false ∧ txldGuard e = false := by
  unfold sequencerChoice
  cases rxstGuard e <;> cases txldGuard e <;> simp

/-- Everything a step with no waiting arrival can do. -/
theorem step_alone {s : State} (h : s.inputs = []) :
    (utlGuard s.cnt = true ∧
      step s = .next (silent { s with turn := s.turn + 1, cnt := s.cnt.takeUnderflowService })) ∨
    (rxstGuard s.eng = true ∧
      step s = .next (silent { s with
        turn := s.turn + 1
        eng := { s.eng.storeRx s.params.cap with rxFull := false, engPhase := .waitTx } })) ∨
    (txldGuard s.eng = true ∧
      step s = .next (silent { s with
        turn := s.turn + 1, eng := { s.eng.loadTx s.params.cap with engPhase := .waitRx } })) ∨
    (utlGuard s.cnt = false ∧ sequencerChoice s.eng = none ∧ step s = .next (silent s)) := by
  simp only [step, takeStep, h, internalChoice, sequencerChoice]
  by_cases h1 : utlGuard s.cnt = true <;> by_cases h2 : rxstGuard s.eng = true <;>
    by_cases h3 : txldGuard s.eng = true <;> by_cases h4 : Config.latchFirst s.turn = true <;>
    simp [h1, h2, h3, h4, execUtlSvc, execEngRxst, execEngTxld]

/-! The status word, bit by bit (10_state R48). -/

theorem statWord_getLsbD (d : Bool) (c : CounterHalf) (e : EngineHalf) (k : Nat) :
    (statWord d c e).getLsbD k =
      match k with
      | 0 => c.configured
      | 1 => c.cfgErr
      | 2 => d
      | 3 => c.ufPending
      | 4 => c.ufIen
      | 5 => c.irq
      | 6 => c.outLevel
      | 8 => e.engEn
      | 9 => e.engPhase.toBit
      | 10 => e.rxFull
      | 11 => e.txFull
      | _ => false := by
  by_cases h : k < 16
  · unfold statWord statBit
    simp only [BitVec.getLsbD_or, getLsbD_place, BitVec.getLsbD_ofBool]
    interval_cases k <;> simp
  · rw [BitVec.getLsbD_of_ge _ _ (by omega)]
    split <;> first | omega | rfl

end Sys2Proof.Machine
end

