-- ==== Sys2Proof/Laws/Encode.lean ====
section
/-! SUPPORT. Fields read back from an encoded word, a word rebuilt from its fields, and the rows of the opcode map
read by mask and match. -/

namespace Sys2Proof

/-- The fields of an encoded configuration. -/
theorem encodeC_fields (op osr : Byte) (dir : Direction) (init top : Half) :
  topOf (encodeC op osr dir init top) = top ∧ initOf (encodeC op osr dir init top) = init ∧
  osrOf (encodeC op osr dir init top) = osr ∧ dirOf (encodeC op osr dir init top) = dir := by
  refine ⟨?_, ?_, ?_, ?_⟩
  · ext i hi
    simp only [topOf, encodeC, BitVec.getElem_extractLsb', BitVec.getLsbD_or, getLsbD_place]
    simp [show ¬ (56 ≤ i) by omega, show ¬ (48 ≤ i) by omega, show ¬ (32 ≤ i) by omega, show ¬ (16 ≤ i) by omega,
        show i < 64 by omega, hi]
  · ext i hi
    simp only [initOf, encodeC, BitVec.getElem_extractLsb', BitVec.getLsbD_or, getLsbD_place]
    simp [show ¬ (56 ≤ 16+i) by omega, show ¬ (48 ≤ 16+i) by omega, show ¬ (32 ≤ 16+i) by omega,
        show 16+i < 64 by omega, hi]
  · ext i hi
    simp only [osrOf, encodeC, BitVec.getElem_extractLsb', BitVec.getLsbD_or, getLsbD_place]
    simp [show ¬ (56 ≤ 48+i) by omega, show 48+i < 64 by omega, hi, BitVec.getLsbD_of_ge top (48+i) (by omega),
        BitVec.getLsbD_of_ge init (48+i-16) (by omega),
            BitVec.getLsbD_of_ge (BitVec.ofBool dir.toBit) (48+i-32) (by omega)]
  · unfold dirOf
    simp only [encodeC, BitVec.getLsbD_or, getLsbD_place]
    simp

/-- The byte operand of an encoded word. -/
theorem immOf_encodeI (op b : Byte) : immOf (encodeI op b) = b := by
  ext i hi
  simp only [immOf, encodeI, BitVec.getElem_extractLsb', BitVec.getLsbD_or, getLsbD_place]
  simp [show ¬ (56 ≤ i) by omega, show i < 64 by omega, hi]

/-- The level of an encoded word. -/
theorem lvlOf_encodeL (op : Byte) (l) : lvlOf (encodeL op l) = l := by
  simp only [lvlOf, encodeL, BitVec.getLsbD_or, getLsbD_place]
  simp

/-- A word of format C is the encoding of its fields. -/
theorem encodeC_of_fields (w : OpWord) (hz : Format.C.zerosClear w = true) :
    encodeC (opcodeOf w) (osrOf w) (dirOf w) (initOf w) (topOf w) = w := by
  simp only [Format.zerosClear, beq_iff_eq] at hz
  have hz' : ∀ i, i < 15 → w.getLsbD (33 + i) = false := by
    intro i hi
    have := congrArg (fun v => v.getLsbD i) hz
    simpa [BitVec.getLsbD_extractLsb', hi] using this
  ext i hi
  rw [← BitVec.getLsbD_eq_getElem, ← BitVec.getLsbD_eq_getElem]
  simp only [encodeC, BitVec.getLsbD_or, getLsbD_place, opcodeOf, osrOf, dirOf, Direction.toBit_ofBit, initOf,
      topOf, BitVec.getLsbD_extractLsb', BitVec.getLsbD_ofBool]
  simp only [hi, decide_true, Bool.true_and]
  by_cases a : 56 ≤ i
  · simp [a, show 48 ≤ i by omega, show 32 ≤ i by omega, show 16 ≤ i by omega, show ¬ i - 48 < 8 by omega,
        show ¬ i -16 < 16 by omega, show ¬ i < 16 by omega, show i - 56 < 8 by omega,
            show 56 + (i-56) = i by omega, show i - 32 ≠ 0 by omega]
  by_cases b : 48 ≤ i
  · simp [a, b, show 32 ≤ i by omega, show 16 ≤ i by omega, show i - 48 < 8 by omega, show ¬ i -16 < 16 by omega,
        show ¬ i < 16 by omega, show 48 + (i-48) = i by omega, show i - 32 ≠ 0 by omega]
  by_cases c : 33 ≤ i
  · have := hz' (i-33) (by omega)
    rw [show 33 + (i-33) = i by omega] at this
    simp [a, b, this, show 16 ≤ i by omega, show ¬ i -16 < 16 by omega, show ¬ i < 16 by omega,
        show i - 32 ≠ 0 by omega]
  by_cases d : i = 32
  · subst d; simp
  by_cases e : 16 ≤ i
  · simp [a, b, e, show ¬ 32 ≤ i by omega, show i -16 < 16 by omega, show ¬ i < 16 by omega,
        show 16 + (i-16) = i by omega]
  · simp [a, b, e, show ¬ 32 ≤ i by omega, show i < 16 by omega]

/-- A word of format I is the encoding of its fields. -/
theorem encodeI_of_fields (w : OpWord) (hz : Format.I.zerosClear w = true) :
    encodeI (opcodeOf w) (immOf w) = w := by
  simp only [Format.zerosClear, beq_iff_eq] at hz
  have hz' : ∀ i, i < 48 → w.getLsbD (8 + i) = false := by
    intro i hi
    have := congrArg (fun v => v.getLsbD i) hz
    simpa [BitVec.getLsbD_extractLsb', hi] using this
  ext i hi
  rw [← BitVec.getLsbD_eq_getElem, ← BitVec.getLsbD_eq_getElem]
  simp only [encodeI, BitVec.getLsbD_or, getLsbD_place, opcodeOf, immOf, BitVec.getLsbD_extractLsb']
  simp only [hi, decide_true, Bool.true_and]
  by_cases a : 56 ≤ i
  · simp [a, show ¬ i < 8 by omega, show i - 56 < 8 by omega, show 56 + (i-56) = i by omega]
  by_cases b : 8 ≤ i
  · have := hz' (i-8) (by omega)
    rw [show 8 + (i-8) = i by omega] at this
    simp [a, this, show ¬ i < 8 by omega]
  · simp [a, show i < 8 by omega]

/-- A word of format L is the encoding of its fields. -/
theorem encodeL_of_fields (w : OpWord) (hz : Format.L.zerosClear w = true) :
    encodeL (opcodeOf w) (lvlOf w) = w := by
  simp only [Format.zerosClear, beq_iff_eq] at hz
  have hz' : ∀ i, i < 55 → w.getLsbD (1 + i) = false := by
    intro i hi
    have := congrArg (fun v => v.getLsbD i) hz
    simpa [BitVec.getLsbD_extractLsb', hi] using this
  ext i hi
  rw [← BitVec.getLsbD_eq_getElem, ← BitVec.getLsbD_eq_getElem]
  simp only [encodeL, BitVec.getLsbD_or, getLsbD_place, opcodeOf, lvlOf, BitVec.getLsbD_extractLsb',
      BitVec.getLsbD_ofBool]
  simp only [hi, decide_true, Bool.true_and]
  by_cases a : 56 ≤ i
  · simp [a, show i - 56 < 8 by omega, show 56 + (i-56) = i by omega]; omega
  by_cases b : 1 ≤ i
  · have := hz' (i-1) (by omega)
    rw [show 1 + (i-1) = i by omega] at this
    simp [a, this]; omega
  · have : i = 0 := by omega
    subst this; simp

/-- A word of format N is the encoding of its opcode. -/
theorem encodeN_of_fields (w : OpWord) (hz : Format.N.zerosClear w = true) : encodeN (opcodeOf w) = w := by
  simp only [Format.zerosClear, beq_iff_eq] at hz
  have hz' : ∀ i, i < 56 → w.getLsbD (i) = false := by
    intro i hi
    have := congrArg (fun v => v.getLsbD i) hz
    simpa [BitVec.getLsbD_extractLsb', hi] using this
  ext i hi
  rw [← BitVec.getLsbD_eq_getElem, ← BitVec.getLsbD_eq_getElem]
  simp only [encodeN, getLsbD_place, opcodeOf, BitVec.getLsbD_extractLsb']
  simp only [hi, decide_true, Bool.true_and]
  by_cases a : 56 ≤ i
  · simp [a, show i - 56 < 8 by omega, show 56 + (i-56) = i by omega]
  · simp [a, hz' i (by omega)]

/-- Words are equal bit by bit. -/
theorem word_eq_iff_bits {w v : OpWord} : w = v ↔ ∀ i, i < 64 → w.getLsbD i = v.getLsbD i := by
  constructor
  · rintro rfl; simp
  · intro h; ext i hi; exact h i hi

/-- The opcode, bit by bit. -/
theorem opcodeOf_eq_iff_bits (op : Byte) (w : OpWord) : opcodeOf w = op ↔ ∀ i,
    56 ≤ i → i < 64 → w.getLsbD i = op.getLsbD (i-56) := by
  constructor
  · rintro rfl i h1 h2
    simp [opcodeOf, show i-56 < 8 by omega, show 56 + (i-56) = i by omega]
  · intro h
    ext i hi
    have := h (56+i) (by omega) (by omega)
    simp only [opcodeOf, BitVec.getElem_extractLsb', this]
    simp [hi]

/-- A field is zero bit by bit. -/
theorem extractLsb_zero_iff_bits {n k} (w : OpWord) : w.extractLsb' k n = 0#n ↔ ∀ i,
    k ≤ i → i < k + n → w.getLsbD i = false := by
  constructor
  · intro h i h1 h2
    have := congrArg (fun v => v.getLsbD (i-k)) h
    simpa [BitVec.getLsbD_extractLsb', show i - k < n by omega, show k + (i-k) = i by omega] using this
  · intro h
    ext i hi
    simp [h (k+i) (by omega) (by omega)]

/-- A mask of the opcode and one zero field selects by both. -/
theorem masked_eq_iff (op : Byte) (w m : OpWord) (k n : Nat) (hkn : k + n ≤ 56) (hm : ∀ i,
    i < 64 → m.getLsbD i = (decide (56 ≤ i) || (decide (k ≤ i) && decide (i < k + n)))) :
   (opcodeOf w = op ∧ w.extractLsb' k n = 0#n) ↔ w &&& m = place 64 56 op := by
  rw [word_eq_iff_bits, opcodeOf_eq_iff_bits, extractLsb_zero_iff_bits]
  constructor
  · rintro ⟨h1, h2⟩ i hi
    rw [BitVec.getLsbD_and, hm i hi, getLsbD_place]
    by_cases a : 56 ≤ i
    · simp only [a, hi, h1 i a hi]; simp
    · by_cases b : k ≤ i ∧ i < k + n
      · simp only [h2 i b.1 b.2]; simp [a]
      · simp only [a]; simp only [not_and, not_lt] at b; simp
        intro _ hk; exact b hk
  · intro h
    constructor
    · intro i h1 h2
      have := h i h2
      rw [BitVec.getLsbD_and, hm i h2, getLsbD_place] at this
      simpa [h1, h2] using this
    · intro i h1 h2
      have := h i (by omega)
      rw [BitVec.getLsbD_and, hm i (by omega), getLsbD_place] at this
      simpa [h1, h2, show ¬ 56 ≤ i by omega] using this

/-- A row selects a word by its opcode and its format. -/
theorem row_selects_iff (r : OpcodeRow) (hr : r ∈ opcodeTable) (w : OpWord) : w &&& r.mask = r.pattern ↔
    (opcodeOf w = r.opcode ∧ r.format.zerosClear w = true) := by
  simp only [opcodeTable, counterRows, engineRows, eventRows, internalRows, List.cons_append, List.nil_append,
    List.mem_cons, List.not_mem_nil, or_false] at hr
  rcases hr with h | h | h | h | h | h | h | h | h | h | h | h | h | h | h <;> subst h <;>
   simp only [Format.zerosClear, beq_iff_eq] <;> symm
  all_goals first
   | exact masked_eq_iff 0x01 w _ 33 15 (by decide) (by decide)
   | exact masked_eq_iff 0x02 w _ 0 56 (by decide) (by decide)
   | exact masked_eq_iff 0x03 w _ 0 56 (by decide) (by decide)
   | exact masked_eq_iff 0x04 w _ 1 55 (by decide) (by decide)
   | exact masked_eq_iff 0x05 w _ 0 56 (by decide) (by decide)
   | exact masked_eq_iff 0x10 w _ 8 48 (by decide) (by decide)
   | exact masked_eq_iff 0x11 w _ 0 56 (by decide) (by decide)
   | exact masked_eq_iff 0x12 w _ 0 56 (by decide) (by decide)
   | exact masked_eq_iff 0x13 w _ 0 56 (by decide) (by decide)
   | exact masked_eq_iff 0x80 w _ 0 56 (by decide) (by decide)
   | exact masked_eq_iff 0x81 w _ 8 48 (by decide) (by decide)
   | exact masked_eq_iff 0x82 w _ 0 56 (by decide) (by decide)
   | exact masked_eq_iff 0xF0 w _ 0 56 (by decide) (by decide)
   | exact masked_eq_iff 0xF1 w _ 0 56 (by decide) (by decide)
   | exact masked_eq_iff 0xF2 w _ 0 56 (by decide) (by decide)

end Sys2Proof
end

