-- ==== Sys2Proof/Laws/PerInstr.lean ====
section
/-! SUPPORT. Laws made per operation: the opcode field of an operation's word, and the class of its opcode. -/

namespace Sys2Proof.Laws

/-- The word of an operation carries its opcode, which finds a row whose issuer is the operation's and whose format's zero
bits are clear in the word (30_encoding R101, R106). -/
def EncodeOpcode.Statement (i : Instr) : Prop :=
  opcodeOf (encode i) = i.opcode ∧
    ∃ r, rowOf i.opcode = some r ∧ r.issuer = i.issuer ∧ r.format.zerosClear (encode i) = true

/-- The class of an opcode says who may issue it: 0x0 and 0x1 HOST, 0x8 the environment, 0xF the internal agents
(30_encoding R103). -/
def OpcodeClass.Statement (i : Instr) : Prop :=
  (i.issuer = .host ↔ i.opcode.extractLsb' 4 4 = 0x0#4 ∨ i.opcode.extractLsb' 4 4 = 0x1#4) ∧
  ((i.issuer = .trig ∨ i.issuer = .master ∨ i.issuer = .reset) ↔ i.opcode.extractLsb' 4 4 = 0x8#4) ∧
  ((i.issuer = .utl ∨ i.issuer = .seq) ↔ i.opcode.extractLsb' 4 4 = 0xF#4)

/-- The opcode field of a word whose other fields lie below bit 56. -/
theorem opcodeOf_place_or (op : Byte) (x : OpWord) (h : ∀ i, 56 ≤ i → x.getLsbD i = false) :
    opcodeOf (place 64 56 op ||| x) = op := by
  ext i hi
  simp only [opcodeOf, BitVec.getElem_extractLsb', BitVec.getLsbD_or, getLsbD_place, h (56 + i) (by omega)]
  simp [show 56 + i < 64 by omega, hi]

theorem encodeN_opcode (op : Byte) : opcodeOf (encodeN op) = op := by
  ext i hi
  simp only [opcodeOf, encodeN, BitVec.getElem_extractLsb', getLsbD_place]
  simp [show 56 + i < 64 by omega, hi]

theorem encodeI_opcode (op b : Byte) : opcodeOf (encodeI op b) = op := by
  refine opcodeOf_place_or op _ (fun i hi => ?_)
  simp [getLsbD_place, BitVec.getLsbD_of_ge b i (by omega)]

theorem encodeL_opcode (op : Byte) (l : Bool) : opcodeOf (encodeL op l) = op := by
  refine opcodeOf_place_or op _ (fun i hi => ?_)
  simp [getLsbD_place, BitVec.getLsbD_of_ge (BitVec.ofBool l) i (by omega)]

theorem encodeC_opcode (op osr : Byte) (dir : Direction) (init top : Half) :
    opcodeOf (encodeC op osr dir init top) = op := by
  unfold encodeC
  simp only [BitVec.or_assoc]
  refine opcodeOf_place_or op _ (fun i hi => ?_)
  simp [getLsbD_place, BitVec.getLsbD_of_ge osr (i - 48) (by omega),
    BitVec.getLsbD_of_ge (BitVec.ofBool dir.toBit) (i - 32) (by omega),
    BitVec.getLsbD_of_ge init (i - 16) (by omega), BitVec.getLsbD_of_ge top i (by omega)]

theorem encodeI_zeros (op b : Byte) : Format.I.zerosClear (encodeI op b) = true := by
  simp only [Format.zerosClear, beq_iff_eq]
  ext i hi
  simp [encodeI, getLsbD_place, show ¬ (56 ≤ 8 + i) by omega]

theorem encodeL_zeros (op : Byte) (l : Bool) : Format.L.zerosClear (encodeL op l) = true := by
  simp only [Format.zerosClear, beq_iff_eq]
  ext i hi
  simp [encodeL, getLsbD_place, show ¬ (56 ≤ 1 + i) by omega]

theorem encodeC_zeros (op osr : Byte) (dir : Direction) (init top : Half) :
    Format.C.zerosClear (encodeC op osr dir init top) = true := by
  simp only [Format.zerosClear, beq_iff_eq]
  ext i hi
  simp [encodeC, getLsbD_place, show ¬ (56 ≤ 33 + i) by omega, show ¬ (48 ≤ 33 + i) by omega,
    BitVec.getLsbD_of_ge (BitVec.ofBool dir.toBit) (33 + i - 32) (by omega),
    BitVec.getLsbD_of_ge init (33 + i - 16) (by omega), BitVec.getLsbD_of_ge top (33 + i) (by omega)]

namespace EncodeOpcode

theorem cntCfg (top init : Half) (dir : Direction) (osr : Byte) : Statement (.cntCfg top init dir osr) :=
  ⟨encodeC_opcode _ _ _ _ _, _, rfl, rfl, encodeC_zeros _ _ _ _ _⟩
theorem cntRd : Statement .cntRd := ⟨by decide, _, rfl, rfl, by decide⟩
theorem irqEn : Statement .irqEn := ⟨by decide, _, rfl, rfl, by decide⟩
theorem outSet (lvl : Bool) : Statement (.outSet lvl) :=
  ⟨encodeL_opcode _ _, _, rfl, rfl, encodeL_zeros _ _⟩
theorem statRd : Statement .statRd := ⟨by decide, _, rfl, rfl, by decide⟩
theorem txPut (b : Byte) : Statement (.txPut b) := ⟨encodeI_opcode _ _, _, rfl, rfl, encodeI_zeros _ _⟩
theorem rxGet : Statement .rxGet := ⟨by decide, _, rfl, rfl, by decide⟩
theorem engPreload : Statement .engPreload := ⟨by decide, _, rfl, rfl, by decide⟩
theorem engEn : Statement .engEn := ⟨by decide, _, rfl, rfl, by decide⟩
theorem edge : Statement .edge := ⟨by decide, _, rfl, rfl, by decide⟩
theorem xchg (m : Byte) : Statement (.xchg m) := ⟨encodeI_opcode _ _, _, rfl, rfl, encodeI_zeros _ _⟩
theorem rst : Statement .rst := ⟨by decide, _, rfl, rfl, by decide⟩
theorem utlSvc : Statement .utlSvc := ⟨by decide, _, rfl, rfl, by decide⟩
theorem engRxst : Statement .engRxst := ⟨by decide, _, rfl, rfl, by decide⟩
theorem engTxld : Statement .engTxld := ⟨by decide, _, rfl, rfl, by decide⟩

end EncodeOpcode

namespace OpcodeClass

theorem cntCfg (top init : Half) (dir : Direction) (osr : Byte) : Statement (.cntCfg top init dir osr) := by
  simp [Statement, Instr.issuer, Instr.opcode]
theorem cntRd : Statement .cntRd := by simp [Statement, Instr.issuer, Instr.opcode]
theorem irqEn : Statement .irqEn := by simp [Statement, Instr.issuer, Instr.opcode]
theorem outSet (lvl : Bool) : Statement (.outSet lvl) := by simp [Statement, Instr.issuer, Instr.opcode]
theorem statRd : Statement .statRd := by simp [Statement, Instr.issuer, Instr.opcode]
theorem txPut (b : Byte) : Statement (.txPut b) := by simp [Statement, Instr.issuer, Instr.opcode]
theorem rxGet : Statement .rxGet := by simp [Statement, Instr.issuer, Instr.opcode]
theorem engPreload : Statement .engPreload := by simp [Statement, Instr.issuer, Instr.opcode]
theorem engEn : Statement .engEn := by simp [Statement, Instr.issuer, Instr.opcode]
theorem edge : Statement .edge := by simp [Statement, Instr.issuer, Instr.opcode]
theorem xchg (m : Byte) : Statement (.xchg m) := by simp [Statement, Instr.issuer, Instr.opcode]
theorem rst : Statement .rst := by simp [Statement, Instr.issuer, Instr.opcode]
theorem utlSvc : Statement .utlSvc := by simp [Statement, Instr.issuer, Instr.opcode]
theorem engRxst : Statement .engRxst := by simp [Statement, Instr.issuer, Instr.opcode]
theorem engTxld : Statement .engTxld := by simp [Statement, Instr.issuer, Instr.opcode]

end OpcodeClass

end Sys2Proof.Laws
end

