-- ==== Sys2Proof/Laws/Trace.lean ====
section
/-! SUPPORT. The trail of a trace, and the ghost counts, taken apart step by step; hazards and unspecified values. -/

namespace Sys2Proof.Machine

@[simp] theorem trail_nil (s : State) : trail [] s = [] := rfl

theorem trail_cons_next {i : Instr} {s t : State} (h : exec i s = .next t) (is : List Instr) :
    trail (i :: is) s = ⟨i, s, t⟩ :: trail is t := by
  simp only [trail, h]

theorem trail_append_next {is : List Instr} {s t : State} (h : execAll is s = .next t) (js : List Instr) :
    trail (is ++ js) s = trail is s ++ trail js t := by
  induction is generalizing s with
  | nil =>
    simp only [execAll_nil, Host.Outcome.next.injEq] at h
    subst h
    rfl
  | cons i is ih =>
    obtain ⟨u, h1, h2⟩ := execAll_cons_next.mp h
    rw [List.cons_append, trail_cons_next h1, trail_cons_next h1, ih h2, List.cons_append]

theorem underflowCount_append_next {is : List Instr} {s t : State} (h : execAll is s = .next t) (js : List Instr) :
    underflowCount (is ++ js) s = underflowCount is s + underflowCount js t := by
  rw [underflowCount, trail_append_next h, List.countP_append]
  rfl

theorem underflowCount_edge (s : State) :
    underflowCount [.edge] s = if s.cnt.underflowDue then 1 else 0 := by
  simp only [underflowCount, trail, exec_edge, execEdge]
  cases h : s.cnt.underflowDue <;> simp [Taken.underflows, h]

theorem edges_succ (n : Nat) : Instr.edges (n + 1) = Instr.edges n ++ [.edge] := by
  simp [Instr.edges, List.replicate_succ']

/-- An operation that runs into no hazard uses no unspecified value, but for the two reads of the counter half before
configuration. -/
theorem usesUnspecified_of_hazards_nil {i : Instr} {s : State} (hz : hazards i s = [])
    (hc : s.cnt.configured = true ∨ (i ≠ .cntRd ∧ i ≠ .statRd)) : usesUnspecified i s = false := by
  cases i
  case xchg m =>
    simp only [hazards] at hz
    split_ifs at hz <;> simp_all [usesUnspecified]
  all_goals simp_all [hazards, usesUnspecified, Option.isSome_iff_ne_none]

end Sys2Proof.Machine
end

