-- ==== Sys2Proof/Tests/Slice0.lean ====
section
/-! SUPPORT. Tests with their expected results from spec/95_test_vectors.md (the vector is named in each docstring), and for
every obligation with hypotheses a witness that meets them. -/

namespace Sys2Proof.Tests

open Sys2Proof Sys2Proof.Machine

/-! Helpers: small states, and one step of one operation. -/

/-- The state a result answers, if it answers one. -/
def nextOf : Result → Option State
  | .next t => some t
  | .fault _ => none
  | .refused _ => none

/-- The fault a result stops with, if it does. -/
def faultOf : Result → Option Fault
  | .next _ => none
  | .fault r => some r
  | .refused _ => none

/-- The refusal a result stops with, if it does. -/
def refusalOf : Result → Option Refusal
  | .next _ => none
  | .fault _ => none
  | .refused r => some r

/-- A counter armed with these operands. -/
def armed (top value : Half) (dir : Direction) (osr : Byte) : State :=
  { State.reset with cnt :=
    { CounterHalf.reset with cntTop := top, cntValue := value, cntDir := dir, osr := osr, configured := true } }

/-- A counter whose configuration was refused for a range error. -/
def refusedCfg : State := { State.reset with cnt := { CounterHalf.reset with cfgErr := true } }

/-- A counter armed with `top` = 2 that stands at 0 with the given flags (P1 after step 6). -/
def atZero (pending ien : Bool) : State :=
  let s := armed 2 0 .down 1
  { s with cnt := { s.cnt with ufPending := pending, ufIen := ien } }

/-- An engine with the given flags, slots 0x01 and 0x22, and the given phase. -/
def engine (rxFull txFull : Bool) (phase : Phase) : State :=
  { State.reset with eng :=
    { EngineHalf.reset 10 with
      engEn := true, rxFull := rxFull, txFull := txFull, rxSlot := 0x01, txSlot := 0x22, engPhase := phase } }

/-- An engine before enabling whose outbound cells 0 and 1 are written. -/
def filled : State :=
  { State.reset with eng := { EngineHalf.reset 10 with txBuf := [(0, 0xA0), (1, 0xA1)], txWr := 2 } }

/-! The form of syntax: every check has a term it refuses (30_encoding R103, 00_scope R12). -/

/-- An event may not be put on the host command port (V-I5). -/
theorem test_wellFormed_refuses_event_on_host_port : Instr.edge.wellFormed .host = false := by decide

/-- An internal step may not be put on the host command port (V-I8). -/
theorem test_wellFormed_refuses_step_on_host_port : Instr.utlSvc.wellFormed .host = false := by decide

/-- A host command may not be put on the trace input. -/
theorem test_wellFormed_refuses_command_on_trace : (Instr.cntCfg 2 2 .down 1).wellFormed .trace = false := by
  decide

theorem test_wellFormed_admits : Instr.statRd.wellFormed .host = true ∧ (Instr.xchg 0).wellFormed .trace = true := by
  decide

/-- `CAP` is 1 to 256. -/
theorem test_params_range :
    Config.Params.wellFormed ⟨0, .any⟩ = false ∧ Config.Params.wellFormed ⟨257, .any⟩ = false ∧
    Config.Params.wellFormed ⟨1, .any⟩ = true ∧ Config.Params.wellFormed ⟨256, .any⟩ = true := by decide

/-- The written form of 30_encoding R110, as part 3 of the vectors writes it. -/
theorem test_written : (Instr.cntCfg 2 2 .down 1).written = "CNT.CFG top=2, init=2, dir=DOWN, osr=1" := by decide

/-! Decoding: one word of every operation, as the vectors write it. -/

/-- V-C2 (all maxima). -/
theorem test_decode_cntCfg : decode 0x01FF00007FFF7FFF = .ok (.cntCfg 0x7FFF 0x7FFF .down 255) := by decide
/-- V-C9: a word that will be refused for its range still spells the operation. -/
theorem test_decode_cntCfg_up : decode 0x01010001FFFFFFFF = .ok (.cntCfg 0xFFFF 0xFFFF .up 1) := by decide
/-- V-R1. -/
theorem test_decode_cntRd : decode 0x0200000000000000 = .ok .cntRd := by decide
/-- V-L1. -/
theorem test_decode_irqEn : decode 0x0300000000000000 = .ok .irqEn := by decide
/-- V-L5. -/
theorem test_decode_outSet : decode 0x0400000000000000 = .ok (.outSet false) := by decide
/-- V-Q1. -/
theorem test_decode_statRd : decode 0x0500000000000000 = .ok .statRd := by decide
/-- V-T3. -/
theorem test_decode_txPut : decode 0x1000000000000099 = .ok (.txPut 0x99) := by decide
/-- V-G1. -/
theorem test_decode_rxGet : decode 0x1100000000000000 = .ok .rxGet := by decide
/-- V-P1. -/
theorem test_decode_engPreload : decode 0x1200000000000000 = .ok .engPreload := by decide
/-- V-N1. -/
theorem test_decode_engEn : decode 0x1300000000000000 = .ok .engEn := by decide
/-- V-E1. -/
theorem test_decode_edge : decode 0x8000000000000000 = .ok .edge := by decide
/-- V-X2. -/
theorem test_decode_xchg : decode 0x8100000000000055 = .ok (.xchg 0x55) := by decide
/-- V-Z1. -/
theorem test_decode_rst : decode 0x8200000000000000 = .ok .rst := by decide
/-- V-L9. -/
theorem test_decode_utlSvc : decode 0xF000000000000000 = .ok .utlSvc := by decide
/-- V-S1. -/
theorem test_decode_engRxst : decode 0xF100000000000000 = .ok .engRxst := by decide
/-- V-S5. -/
theorem test_decode_engTxld : decode 0xF200000000000000 = .ok .engTxld := by decide

/-- V-C10, V-R5, V-T6, V-Q7, V-I11, V-I13, X8: reserved bits. -/
theorem test_decode_reservedBits :
    decode 0x0101000200020002 = .error .reservedBits ∧ decode 0x0200000000000001 = .error .reservedBits ∧
    decode 0x1000000000000100 = .error .reservedBits ∧ decode 0x0500000000000010 = .error .reservedBits ∧
    decode 0x0300000000000001 = .error .reservedBits ∧ decode 0x1300000080000000 = .error .reservedBits ∧
    decode 0x8000000000000001 = .error .reservedBits := by decide

/-- V-I1, V-I2, V-I3, V-I4, V-I10, X9: unassigned opcodes. -/
theorem test_decode_unassigned :
    decode 0x0000000000000000 = .error .unassignedOpcode ∧ decode 0x0600000000000000 = .error .unassignedOpcode ∧
    decode 0x1400000000000000 = .error .unassignedOpcode ∧ decode 0x2000000000000000 = .error .unassignedOpcode ∧
    decode 0xFFFFFFFFFFFFFFFF = .error .unassignedOpcode ∧ decode 0xF300000000000000 = .error .unassignedOpcode := by
  decide

/-- The encoder on the words of V-C3, V-T1 and V-L4. -/
theorem test_encode :
    encode (.cntCfg 9 4 .up 2) = 0x0102000100040009 ∧ encode (.txPut 0xA0) = 0x10000000000000A0 ∧
    encode (.outSet true) = 0x0400000000000001 := by decide

/-- The bytes of V-C3 on a transport, least significant first (20_memory R74). -/
theorem test_bytes :
    encodeBytes (.cntCfg 9 4 .up 2) = [0x09, 0x00, 0x04, 0x00, 0x01, 0x00, 0x02, 0x01] := by decide

/-- The bytes of the responses of V-Q3 (with the engine of V-Q6) and V-L6 on a transport, least significant first
(20_memory R74), and a response read back. -/
theorem test_bytes_response :
    bytesOfResponse 0x00000705 = [0x05, 0x07, 0x00, 0x00] ∧ bytesOfResponse 0x03000000 = [0x00, 0x00, 0x00, 0x03] ∧
    (readResponse [0x05, 0x07, 0x00, 0x03, 0xEE]).toOption = some (0x03000705, [0xEE]) := by decide

theorem test_decodeTableWord :
    decodeTableWord 64 0x0102000100040009 = some (.cntCfg 9 4 .up 2) ∧
    decodeTableWord 64 0x0101800000020002 = none := by decide

/-! One step of each operation. -/

/-- V-C1: armed. -/
theorem test_cntCfg_arms :
    (nextOf (exec (.cntCfg 2 2 .down 1) State.reset)).map
      (fun t => (t.cnt.cntTop, t.cnt.cntValue, t.cnt.configured, t.output)) =
      some (2, 2, true, .response 0x00000000) := by decide

/-- V-C7: `init > top` latches the error and writes no counter register. -/
theorem test_cntCfg_range :
    (nextOf (exec (.cntCfg 5 6 .down 1) State.reset)).map (fun t => (t.cnt.cfgErr, t.cnt.cntTop, t.output)) =
      some (true, 0, .response 0x01000000) := by decide

/-- V-R2. -/
theorem test_cntRd : (nextOf (exec .cntRd (armed 32767 32767 .down 1))).map (·.output) =
    some (.response 0x00007FFF) := by decide

/-- V-L3: a pending underflow becomes a request when it is enabled. -/
theorem test_irqEn : (nextOf (exec .irqEn (atZero true false))).map (fun t => t.irqLine) = some true := by decide

/-- V-L6. -/
theorem test_outSet_armed : (nextOf (exec (.outSet true) (armed 2 2 .down 1))).map (fun t => (t.outLine, t.output)) =
    some (false, .response 0x03000000) := by decide

/-- V-L7: allowed after a configuration error. -/
theorem test_outSet_cfgErr : (nextOf (exec (.outSet true) refusedCfg)).map (fun t => (t.outLine, t.output)) =
    some (true, .response 0x00000000) := by decide

/-- V-Q2: the word, and the read clears nothing. -/
theorem test_statRd_pending : (nextOf (exec .statRd (atZero true true))).map (fun t => (t.output, t.cnt.ufPending)) =
    some (.response 0x00000039, true) := by decide

/-- V-Q3 with the engine of V-Q6. -/
theorem test_statRd_engine :
    (nextOf (exec .statRd
      { engine true false .waitTx with cnt := (armed 9 4 .up 2).cnt })).map (·.output) =
      some (.response 0x00000705) := by decide

/-- V-T2: the write index wraps. -/
theorem test_txPut_wraps :
    (nextOf (exec (.txPut 0xA9) { State.reset with eng := { EngineHalf.reset 10 with txWr := 9 } })).map
      (fun t => (t.eng.txBuf, t.eng.txWr)) = some ([(9, 0xA9)], 0) := by decide

/-- V-T5. -/
theorem test_txPut_enabled : (nextOf (exec (.txPut 0x99) (engine false true .waitRx))).map
    (fun t => (t.eng.txBuf, t.output)) = some ([], .response 0x03000000) := by decide

/-- V-G2: the read index wraps, the byte is zero-extended. -/
theorem test_rxGet_wraps :
    (nextOf (exec .rxGet
      { State.reset with eng := { EngineHalf.reset 10 with rxBuf := [(9, 0xFF)], rxRd := 9 } })).map
      (fun t => (t.output, t.eng.rxRd)) = some (.response 0x000000FF, 0) := by decide

/-- V-P1: cell 0, and no index moves. -/
theorem test_engPreload : (nextOf (exec .engPreload filled)).map
    (fun t => (t.eng.txSlot, t.eng.txFull, t.eng.txRd, t.eng.txWr)) = some (0xA0, true, 1, 2) := by decide

/-- V-N2: accepted without a pre-load. -/
theorem test_engEn : (nextOf (exec .engEn State.reset)).map (fun t => (t.eng.engEn, t.output)) =
    some (true, .response 0x00000000) := by decide

/-- P1 step 7: the underflow reloads and sets the flag. -/
theorem test_edge_underflow : (nextOf (exec .edge (atZero false true))).map
    (fun t => (t.cnt.cntValue, t.cnt.ufPending, t.cnt.outLevel)) = some (2, true, false) := by decide

/-- S2 after edge 1: fewer than `osr` edges count nothing. -/
theorem test_edge_gated : (nextOf (exec .edge (armed 1 1 .down 4))).map
    (fun t => (t.cnt.edgeCnt, t.cnt.cntValue)) = some (1, 1) := by decide

/-- V-X1: the slot goes out, its bits stay. -/
theorem test_xchg : (nextOf (exec (.xchg 0x05) (engine false true .waitRx))).map
    (fun t => (t.output, t.eng.rxSlot, t.eng.rxFull, t.eng.txFull, t.eng.txSlot)) =
    some (.miso 0x22, 0x05, true, false, 0x22) := by decide

/-- V-X2: ignored while disabled. -/
theorem test_xchg_disabled : (nextOf (exec (.xchg 0x55) State.reset)).map
    (fun t => (t.eng.rxFull, t.eng.rxSlot)) = some (false, 0) := by decide

/-- V-Z1, what R60 fixes. -/
theorem test_rst : (nextOf (exec .rst { engine true false .waitTx with cnt := (atZero true true).cnt })).map
    (fun t => (t.cnt.ufPending, t.cnt.configured, t.eng.engEn, t.eng.txRd, t.eng.engPhase)) =
    some (false, false, false, 1, .waitRx) := by decide

/-- V-Z2: `tx_rd` is 0 for `CAP` = 1. -/
theorem test_rst_cap_one : (nextOf (exec .rst (State.resetWith ⟨1, .any⟩))).map (fun t => t.eng.txRd) = some 0 := by
  decide

/-- V-L9. -/
theorem test_utlSvc : (nextOf (exec .utlSvc (atZero true true))).map
    (fun t => (t.cnt.ufPending, t.cnt.outLevel)) = some (false, true) := by decide

/-- V-L11. -/
theorem test_utlSvc_disabled : faultOf (exec .utlSvc (atZero true false)) = some .noUnderflowRequest := by decide

/-- V-S1. -/
theorem test_engRxst : (nextOf (exec .engRxst (engine true false .waitRx))).map
    (fun t => (t.eng.rxBuf, t.eng.rxWr, t.eng.rxFull, t.eng.engPhase)) = some ([(0, 0x01)], 1, false, .waitTx) := by
  decide

/-- V-S4. -/
theorem test_engRxst_wrong_phase : faultOf (exec .engRxst (engine true false .waitTx)) = some .receiveBlocked := by
  decide

/-- V-S5. -/
theorem test_engTxld : (nextOf (exec .engTxld
    { filled with eng := { filled.eng with engEn := true, engPhase := .waitTx } })).map
    (fun t => (t.eng.txSlot, t.eng.txFull, t.eng.txRd, t.eng.engPhase)) = some (0xA1, true, 2, .waitRx) := by decide

/-- V-S7. -/
theorem test_engTxld_wrong_phase : faultOf (exec .engTxld (engine false false .waitRx)) = some .transmitBlocked := by
  decide

/-! One step of the machine. -/

/-- V-I1: an illegal word on the host command port. -/
theorem test_step_illegal : (nextOf (step (State.reset.withFetchWord 64 0))).map (·.output) =
    some (.response 0x04000000) := by decide

/-- V-I7: the host port cannot reset the core. -/
theorem test_step_rst_on_host_port :
    (nextOf (step { State.reset with inputs := [⟨.host, 0x8200000000000000⟩] })).map (·.output) =
      some (.response 0x04000000) := by decide

/-- X8: a trace word that spells no event. -/
theorem test_step_not_a_trace : refusalOf (step (State.reset.withFetchWord 64 0x8000000000000001)) =
    some .notATraceWord := by decide

/-- V-C1 put to the core. -/
theorem test_step_runs_the_word :
    (nextOf (step (State.reset.withFetchWord 64 0x0101000000020002))).map (fun t => (t.cnt.configured, t.inputs)) =
      some (true, []) := by decide

/-- The core left alone serves its request (60_exceptions R292). -/
theorem test_step_alone : (nextOf (step (atZero true true))).map (fun t => t.cnt.outLevel) = some true := by decide

/-! Memory. -/

theorem test_reset_memory_wf : State.reset.eng.rxBuf.wf = true ∧ State.reset.eng.txBuf.wf = true := by decide

/-- Writes in any order leave the addresses rising. -/
theorem test_memory_canonical : Memory.write (Memory.write (Memory.write [] 5 1) 2 3) 5 7 = [(2, 3), (5, 7)] := by
  decide

theorem test_memory_wf_refuses : Memory.wf [(5, 1), (2, 3)] = false ∧ Memory.wf [(2, 3), (2, 1)] = false := by decide

/-! Witnesses: for each obligation with hypotheses, a concrete state and operands that meet all of them together (one for each
clause). -/

/-- The boundary counter: all maxima, one edge before the pulse. -/
def maximal : State :=
  let s := armed 0x7FFF 0x7FFF .up 255
  { s with cnt := { s.cnt with edgeCnt := 254 } }

theorem inv_armed : Inv (armed 2 2 .down 1) := by
  refine ⟨by decide, ?_, ?_⟩ <;> constructor <;> decide

theorem inv_atZero : Inv (atZero false true) := by
  refine ⟨by decide, ?_, ?_⟩ <;> constructor <;> decide

theorem inv_maximal : Inv maximal := by
  refine ⟨by decide, ?_, ?_⟩ <;> constructor <;> decide

theorem inv_engine : Inv (engine true true .waitTx) := by
  refine ⟨by decide, ?_, ?_⟩ <;> constructor <;> decide

theorem inv_reset_cap_one : Inv (State.resetWith ⟨1, .any⟩) := by
  refine ⟨by decide, ?_, ?_⟩ <;> constructor <;> decide

theorem witness_EncodeOfDecodeIsTheWord : decode 0x0102000100040009 = .ok (.cntCfg 9 4 .up 2) := by decide

theorem witness_DecoderAgreesWithMatchAndMask :
    ∃ r, opcodeTable[9]? = some r ∧ (0x8000000000000000 : OpWord) &&& r.mask = r.pattern := ⟨_, rfl, by decide⟩

/-- The last byte of a word and of a response, and the longest lists that are too short. -/
theorem witness_TransportBytesRoundTrip :
    (7 < 8) ∧ ([0, 0, 0, 0, 0, 0, 5] : List Byte).length < 8 ∧ (3 < 4) ∧ ([0, 0, 5] : List Byte).length < 4 := by decide

theorem witness_StepRunsTheDecodedInstruction :
    let s := State.reset.withFetchWord 64 0x8100000000000009
    s.inputs = ⟨.trace, 0x8100000000000009⟩ :: [] ∧ decode 0x8100000000000009 = .ok (.xchg 9) ∧
      (Instr.xchg 9).wellFormed .trace = true := by decide

/-- For `EveryWordHasOneVerdict` and `WhatIsNoTraceStopsByName`: a word for each clause, with, on the trace input, an event
with a reserved bit and an unassigned opcode of class 0xF. -/
theorem witness_EveryWordHasOneVerdict :
    (∃ r ∈ opcodeTable, r.issuer = .host ∧ (0x0400000000000001 : OpWord) &&& r.mask = r.pattern) ∧
    (∃ r ∈ opcodeTable, r.issuer = .trig ∧ (0x8000000000000000 : OpWord) &&& r.mask = r.pattern) ∧
    (∀ r ∈ opcodeTable, r.issuer = .host → (0x8200000000000000 : OpWord) &&& r.mask ≠ r.pattern) ∧
    (∀ r ∈ opcodeTable, r.issuer ≠ .host → (0x8000000000000001 : OpWord) &&& r.mask ≠ r.pattern) ∧
    (∀ r ∈ opcodeTable, r.issuer ≠ .host → (0xF300000000000000 : OpWord) &&& r.mask ≠ r.pattern) := by decide

/-- For the same two, the words of log 11 on the trace input: a host command's word and a word of a reserved class. -/
theorem witness_EveryWordHasOneVerdict_host_words :
    decode 0x0500000000000000 = .ok .statRd ∧
    (∀ r ∈ opcodeTable, r.issuer ≠ .host → (0x0500000000000000 : OpWord) &&& r.mask ≠ r.pattern) ∧
    (∀ r ∈ opcodeTable, r.issuer ≠ .host → (0x2000000000000000 : OpWord) &&& r.mask ≠ r.pattern) ∧
    ({ State.reset with inputs := [⟨.trace, 0x0500000000000000⟩] } : State).inputs =
      ⟨.trace, 0x0500000000000000⟩ :: [] := by decide

theorem witness_WhatIsNoTraceStopsByName :
    utlGuard State.reset.cnt = false ∧ rxstGuard State.reset.eng = false ∧ txldGuard State.reset.eng = false ∧
    (State.reset.withFetchWord 64 0x8000000000000001).inputs = [⟨.trace, 0x8000000000000001⟩] := by decide

theorem witness_StepsOfAScheduleAreItsTrace :
    ∃ t, ({ State.reset with inputs := [Instr.edge.arrival, Instr.irqEn.arrival] } : State).inputs =
        [Instr.edge, Instr.irqEn].map Instr.arrival ++ [] ∧
      execAll [.edge, .irqEn] { State.reset with inputs := [] } = .next t := ⟨_, rfl, rfl⟩

/-- For `CoreMovesByItselfOnlyUnderAGuard` and `CoreLeftAloneSettlesInThreeSteps`: with every guard true, and with none. -/
theorem witness_CoreLeftAlone :
    (atZero true true).inputs = [] ∧ utlGuard (atZero true true).cnt = true ∧ State.reset.inputs = [] := by decide

theorem witness_CntCfg_refuses : maximal.cnt.configured = true ∧ refusedCfg.cnt.cfgErr = true := by decide

theorem witness_CntCfg_arms :
    State.reset.cnt.configured = false ∧ State.reset.cnt.cfgErr = false ∧
    (0 : Int) ≤ (0x7FFF : Half).toInt ∧ (0x7FFF : Half).toInt ≤ (0x7FFF : Half).toInt ∧ 1 ≤ (1 : Byte).toNat := by decide

/-- Each way out of range at its boundary. -/
theorem witness_CntCfg_range :
    (0x8000 : Half).toInt < 0 ∧ (0x7FFE : Half).toInt < (0x7FFF : Half).toInt ∧ (0 : Byte).toNat = 0 := by decide

/-- For `CntRdAnswersTheCounter`, `OutSetOnlyBeforeArming` and `StatRdAnswersTheStatusWord`, both clauses. -/
theorem witness_configured : maximal.cnt.configured = true ∧ refusedCfg.cnt.configured = false := by decide

/-- For `TxPutStoresAtTheWriteIndex`, `EngPreloadLoadsCellZero` and `EngEnEnablesOnce`, both clauses. -/
theorem witness_enabled : (engine true true .waitTx).eng.engEn = true ∧ filled.eng.engEn = false := by decide

/-- For `EdgeGatesCountsAndReloads`: unarmed, the last gated edge, and the four pulses. -/
theorem witness_Edge :
    State.reset.cnt.configured = false ∧
    (armed 1 1 .down 2).cnt.edgeCnt.toNat + 1 < (armed 1 1 .down 2).cnt.osr.toNat ∧
    maximal.cnt.osr.toNat ≤ maximal.cnt.edgeCnt.toNat + 1 ∧ maximal.cnt.cntDir = .up ∧
    maximal.cnt.cntValue = maximal.cnt.cntTop ∧ (armed 2 1 .up 1).cnt.cntValue ≠ (armed 2 1 .up 1).cnt.cntTop ∧
    (atZero false true).cnt.cntValue = 0 ∧ (armed 2 1 .down 1).cnt.cntValue ≠ 0 := by decide

/-- For `XchgExchangesTheSlots`: each state of the two slots, and an enabled overrun under each policy. -/
theorem witness_Xchg :
    filled.eng.engEn = false ∧ (engine false true .waitRx).eng.engEn = true ∧
    (engine false true .waitRx).eng.rxFull = false ∧ (engine false true .waitRx).eng.txFull = true ∧
    (engine true false .waitRx).eng.rxFull = true ∧ (engine true false .waitRx).eng.txFull = false ∧
    (engine true true .waitRx).params.overrun = .any ∧
    (∃ s : State, s.eng.engEn = true ∧ s.eng.rxFull = true ∧ s.params.overrun = .keepOld) ∧
    (∃ s : State, s.eng.engEn = true ∧ s.eng.rxFull = true ∧ s.params.overrun = .takeNew) :=
  ⟨by decide, by decide, by decide, by decide, by decide, by decide, by decide,
    ⟨{ engine true true .waitRx with params := ⟨10, .keepOld⟩ }, by decide⟩,
    ⟨{ engine true true .waitRx with params := ⟨10, .takeNew⟩ }, by decide⟩⟩

/-- For `UtlSvcAcknowledgesAndToggles`, every clause: with nothing and with a read between two services, and, for contrast,
with the underflow that lets the second happen. -/
theorem witness_UtlSvc :
    (atZero true true).cnt.ufPending = true ∧ (atZero true true).cnt.ufIen = true ∧
    (atZero true false).cnt.ufIen = false ∧ (atZero false true).cnt.ufPending = false ∧
    underflowCount [.utlSvc] (atZero true true) = 0 ∧
    underflowCount [.utlSvc, .cntRd, .irqEn] (atZero true true) = 0 ∧
    (∃ t, execAll [.utlSvc, .cntRd, .irqEn] (atZero true true) = .next t) ∧
    underflowCount [.utlSvc, .edge] (atZero true true) = 1 ∧
    (∃ t, execAll [.utlSvc, .edge, .utlSvc] (atZero true true) = .next t) :=
  ⟨by decide, by decide, by decide, by decide, by decide, by decide, ⟨_, rfl⟩, by decide, ⟨_, rfl⟩⟩

/-- For `UnspecifiedValuesAreFreshDraws`: the reads before configuration, the exchanges with nothing to send, the overrun. -/
theorem witness_UnspecifiedValuesAreFreshDraws :
    (∃ t, exec .cntRd State.reset = .next t) ∧ (∃ t, exec .statRd State.reset = .next t) ∧
    State.reset.cnt.configured = false ∧ (∃ t, exec (.xchg 9) State.reset = .next t) ∧
    (∃ t, exec (.xchg 9) (engine true false .waitRx) = .next t) ∧ (engine true false .waitRx).params.overrun = .any ∧
    (∃ t, exec .rst State.reset = .next t) :=
  ⟨⟨_, rfl⟩, ⟨_, rfl⟩, rfl, ⟨_, rfl⟩, ⟨_, rfl⟩, rfl, ⟨_, rfl⟩⟩

/-- For `EngRxstStoresTheReceivedByte` and `EngTxldLoadsTheNextByte`, every clause. -/
theorem witness_sequencer :
    (engine true false .waitRx).eng.engPhase = .waitRx ∧ (engine true false .waitRx).eng.rxFull = true ∧
    (engine true false .waitTx).eng.engPhase = .waitTx ∧ (engine true false .waitTx).eng.txFull = false ∧
    (engine false true .waitRx).eng.rxFull = false ∧ (engine false true .waitRx).eng.txFull = true := by decide

theorem witness_CommandsAndEventsAlwaysComplete : Instr.rst.issuer ≠ .utl ∧ Instr.rst.issuer ≠ .seq := by decide

/-- For `WhoAnswersWhat`: an answer, a byte, and silence. -/
theorem witness_WhoAnswersWhat :
    (∃ t, exec .rxGet State.reset = .next t ∧ Instr.rxGet.issuer = .host) ∧
    (∃ t, exec (.xchg 255) (engine true true .waitTx) = .next t ∧ (Instr.xchg 255).issuer = .master) ∧
    (∃ t, exec .rst State.reset = .next t ∧ Instr.rst.issuer = .reset) :=
  ⟨⟨_, rfl, rfl⟩, ⟨_, rfl, rfl⟩, ⟨_, rfl, rfl⟩⟩

theorem witness_RefusedCommandChangesNothing :
    ∃ t, exec (.outSet true) maximal = .next t ∧ t.output = .response 0x03000000 ∧
      (0x03000000 : RspWord).extractLsb' 24 8 ≠ 0 := ⟨_, rfl, by decide, by decide⟩

/-- For `CounterHalfWriters`: each premise is met by its writer. -/
theorem witness_CounterHalfWriters :
    (∃ t, exec (.cntCfg 2 2 .up 1) State.reset = .next t ∧ t.cnt.cntTop ≠ State.reset.cnt.cntTop) ∧
    (∃ t, exec .edge (atZero false true) = .next t ∧ t.cnt.ufPending ≠ (atZero false true).cnt.ufPending) ∧
    (∃ t, exec .irqEn State.reset = .next t ∧ t.cnt.ufIen ≠ State.reset.cnt.ufIen) ∧
    (∃ t, exec (.outSet true) State.reset = .next t ∧ t.cnt.outLevel ≠ State.reset.cnt.outLevel) :=
  ⟨⟨_, rfl, by decide⟩, ⟨_, rfl, by decide⟩, ⟨_, rfl, by decide⟩, ⟨_, rfl, by decide⟩⟩

/-- For `EngineHalfWriters`: each premise is met by its writer. -/
theorem witness_EngineHalfWriters :
    (∃ t, exec .engTxld (engine true false .waitTx) = .next t ∧
      t.eng.txRd ≠ (engine true false .waitTx).eng.txRd ∧
      t.eng.txFull ≠ (engine true false .waitTx).eng.txFull ∧
      t.eng.engPhase ≠ (engine true false .waitTx).eng.engPhase) ∧
    (∃ t, exec .engRxst (engine true false .waitRx) = .next t ∧
      t.eng.rxWr ≠ (engine true false .waitRx).eng.rxWr ∧
      t.eng.rxFull ≠ (engine true false .waitRx).eng.rxFull) ∧
    (∃ t, exec (.xchg 9) (engine false true .waitRx) = .next t ∧
      t.eng.rxSlot ≠ (engine false true .waitRx).eng.rxSlot) ∧
    (∃ t, exec .rxGet filled = .next t ∧ t.eng.rxRd ≠ filled.eng.rxRd) ∧
    (∃ t, exec (.txPut 0x99) filled = .next t ∧ t.eng.txWr ≠ filled.eng.txWr) ∧
    (∃ t, exec .engPreload filled = .next t ∧ t.eng.txSlot ≠ filled.eng.txSlot) ∧
    (∃ t, exec .engEn filled = .next t ∧ t.eng.engEn ≠ filled.eng.engEn) ∧
    (∃ t, exec (.txPut 0x99) { filled with eng := { filled.eng with txWr := 1 } } = .next t ∧
      t.eng.memRead .tx 1 ≠ filled.eng.memRead .tx 1) ∧
    (∃ t, exec .engRxst
        { filled with eng := { filled.eng with engEn := true, rxFull := true, rxSlot := 1, rxBuf := [(0, 7)] } } = .next t ∧
      t.eng.memRead .rx 0 ≠ 7) :=
  ⟨⟨_, rfl, by decide⟩, ⟨_, rfl, by decide⟩, ⟨_, rfl, by decide⟩, ⟨_, rfl, by decide⟩, ⟨_, rfl, by decide⟩,
    ⟨_, rfl, by decide⟩, ⟨_, rfl, by decide⟩, ⟨_, rfl, by decide⟩, ⟨_, rfl, by decide⟩⟩

theorem witness_OperationsStayInTheirHalf :
    (∃ t, exec (.xchg 9) (engine false true .waitRx) = .next t ∧ touchesCounter (.xchg 9) = false) ∧
    (∃ t, exec .edge (atZero false true) = .next t ∧ touchesEngine .edge = false) ∧
    (∃ t, exec .statRd State.reset = .next t) := ⟨⟨_, rfl, rfl⟩, ⟨_, rfl, rfl⟩, ⟨_, rfl⟩⟩

theorem witness_HalvesAreIndependentMachines :
    let is : List Instr := [.edge, .xchg 9, .utlSvc, .statRd]
    (∃ t, execAll is (atZero false true) = .next t) ∧
    (∃ u, execAll (is.filter touchesCounter) (atZero false true) = .next u) ∧
    (∃ v, execAll (is.filter touchesEngine) (atZero false true) = .next v) := ⟨⟨_, rfl⟩, ⟨_, rfl⟩, ⟨_, rfl⟩⟩

theorem witness_ConfigurationStateTransitions :
    (∃ t, exec (.cntCfg 2 2 .down 1) State.reset = .next t ∧ State.reset.cnt.cfgState = some .unconf ∧
      t.cnt.cfgState = some .armed) ∧
    (∃ t, exec (.cntCfg 2 3 .down 1) State.reset = .next t ∧ t.cnt.cfgState = some .cfgErr) ∧
    (∃ t, exec .rst refusedCfg = .next t ∧ refusedCfg.cnt.cfgState = some .cfgErr ∧
      t.cnt.cfgState = some .unconf) ∧ Inv maximal :=
  ⟨⟨_, rfl, rfl, rfl⟩, ⟨_, rfl, rfl⟩, ⟨_, rfl, rfl, rfl⟩, inv_maximal⟩

theorem witness_UnderflowRisesOnlyBelowZero :
    ∃ t, exec .edge (atZero false false) = .next t ∧ (atZero false false).cnt.ufPending = false ∧
      t.cnt.ufPending = true := ⟨_, rfl, by decide, by decide⟩

/-- For `SecondUnderflowCoalesces` and `ServiceThenUnderflowKeepsTheNewRequest`. -/
theorem witness_coalescing :
    (atZero true true).cnt.underflowDue = true ∧ (atZero true true).cnt.ufPending = true ∧
    (atZero true true).cnt.irq = true := by decide

theorem witness_OutputLineIsTheParityOfServices :
    ∃ t, execAll [.edge, .utlSvc] (atZero false true) = .next t ∧ (atZero false true).cnt.configured = true ∧
      Instr.rst ∉ [Instr.edge, .utlSvc] := ⟨_, rfl, by decide, by decide⟩

theorem witness_EnabledEngineKeepsItsTransmitBuffer :
    ∃ t, execAll [.xchg 9, .engRxst, .txPut 5] (engine false true .waitRx) = .next t ∧
      (engine false true .waitRx).eng.engEn = true ∧ Instr.rst ∉ [Instr.xchg 9, .engRxst, .txPut 5] :=
  ⟨_, rfl, by decide, by decide⟩

/-- Two states that differ in a received byte. -/
theorem witness_TransmitSideIgnoresReceivedBytes :
    let s := engine true true .waitRx
    let s' : State := { s with eng := { s.eng with rxSlot := 0x77, rxBuf := [(3, 1)] } }
    s' = { s with eng := { s.eng with rxBuf := s'.eng.rxBuf, rxSlot := s'.eng.rxSlot } } ∧ s' ≠ s ∧
    (∃ t, exec (.xchg 1) s = .next t) ∧ (∃ t, exec (.xchg 2) s' = .next t) ∧
    (∃ t, exec .engRxst s = .next t) ∧ (∃ t, exec .engRxst s' = .next t) :=
  ⟨rfl, by decide, ⟨_, rfl⟩, ⟨_, rfl⟩, ⟨_, rfl⟩, ⟨_, rfl⟩⟩

/-- Two states that differ in an unspecified register and an empty slot: one runs, the other kind of step stops. -/
theorem witness_UnspecifiedValuesStayConfined :
    let s := State.reset
    let s' : State := { s with cnt := { s.cnt with cntTop := 7 }, eng := { s.eng with rxSlot := 9 } }
    s.known = s'.known ∧ s ≠ s' ∧ usesUnspecified (.cntCfg 2 2 .down 1) s = false ∧
    (∃ t, exec (.cntCfg 2 2 .down 1) s = .next t) ∧
    usesUnspecified .utlSvc s = false ∧ exec .utlSvc s = .fault .noUnderflowRequest :=
  ⟨by decide, by decide, by decide, ⟨_, rfl⟩, by decide, rfl⟩

/-- Two states that differ in an empty slot, in a filling and in the draws: an exchange runs, a read of the armed counter runs,
an internal step stops. -/
theorem witness_HazardFreeOperationActsAlikeOnUnspecifiedValues :
    let s := engine false true .waitRx
    let s' : State := { s with cnt := { s.cnt with cntTop := 7 }, eng := { s.eng with rxSlot := 0x77, fill := 3 } }
    let u' : State := { maximal with cnt := { maximal.cnt with draws := 5 } }
    s.known = s'.known ∧ s ≠ s' ∧ hazards (.xchg 9) s = [] ∧ Instr.xchg 9 ≠ .cntRd ∧ Instr.xchg 9 ≠ .statRd ∧
    (∃ t, exec (.xchg 9) s = .next t) ∧
    maximal.known = u'.known ∧ maximal ≠ u' ∧ hazards .cntRd maximal = [] ∧ maximal.cnt.configured = true ∧
    (∃ t, exec .cntRd maximal = .next t) ∧
    hazards .engRxst s = [] ∧ Instr.engRxst ≠ .cntRd ∧ exec .engRxst s = .fault .receiveBlocked :=
  ⟨by decide, by decide, by decide, by decide, by decide, ⟨_, rfl⟩, by decide, by decide, by decide, by decide, ⟨_, rfl⟩,
    by decide, by decide, rfl⟩

theorem witness_InvariantHoldsAtReset :
    Config.Params.wellFormed ⟨1, .any⟩ = true ∧ Config.Params.wellFormed ⟨256, .takeNew⟩ = true := by decide

theorem witness_EveryInstructionKeepsTheInvariant :
    Inv (engine true true .waitTx) ∧ ∃ t, exec (.xchg 9) (engine true true .waitTx) = .next t :=
  ⟨inv_engine, _, rfl⟩

theorem witness_EveryStepKeepsTheInvariant :
    Inv State.reset ∧ ∃ t, step State.reset = .next t :=
  ⟨by refine ⟨by decide, ?_, ?_⟩ <;> constructor <;> decide, _, rfl⟩

theorem witness_RegistersFitTheirWidths : Inv maximal ∧ maximal.cnt.configured = true := ⟨inv_maximal, rfl⟩

/-- The gated edge, the pulse down and the pulse up. -/
theorem witness_CounterArithmeticNeverWraps :
    (Inv (armed 2 2 .down 1) ∧ (armed 2 2 .down 1).cnt.configured = true ∧
      (armed 2 2 .down 1).cnt.pulseDue = true ∧ (armed 2 2 .down 1).cnt.cntValue ≠ 0 ∧
      ∃ t, exec .edge (armed 2 2 .down 1) = .next t) ∧
    (armed 1 1 .down 2).cnt.edgeCnt.toNat + 1 < (armed 1 1 .down 2).cnt.osr.toNat ∧
    ((armed 0x7FFF 0x7FFE .up 1).cnt.pulseDue = true ∧
      (armed 0x7FFF 0x7FFE .up 1).cnt.cntValue ≠ (armed 0x7FFF 0x7FFE .up 1).cnt.cntTop) :=
  ⟨⟨inv_armed, by decide, by decide, by decide, _, rfl⟩, by decide, by decide, by decide⟩

theorem witness_CapacityOneIndicesAreZero :
    Inv (State.resetWith ⟨1, .any⟩) ∧ (State.resetWith ⟨1, .any⟩).params.cap = 1 ∧
    ∃ t, execAll [.txPut 5, .engPreload, .engEn, .xchg 1, .engRxst, .engTxld, .rxGet] (State.resetWith ⟨1, .any⟩) = .next t :=
  ⟨inv_reset_cap_one, by decide, _, rfl⟩

/-- For `CountingHasItsClosedForms`, down and up. -/
theorem witness_CountingHasItsClosedForms :
    (Inv (armed 2 2 .down 1) ∧ (armed 2 2 .down 1).cnt.configured = true ∧ (armed 2 2 .down 1).cnt.cntDir = .down ∧
      (armed 2 2 .down 1).cnt.edgeCnt = 0) ∧
    (Inv (armed 2 1 .up 1) ∧ (armed 2 1 .up 1).cnt.configured = true ∧ (armed 2 1 .up 1).cnt.cntDir = .up ∧
      (armed 2 1 .up 1).cnt.edgeCnt = 0) :=
  ⟨⟨inv_armed, by decide, by decide, by decide⟩,
    by refine ⟨by decide, ?_, ?_⟩ <;> constructor <;> decide, by decide, by decide, by decide⟩

/-- The last edge that does not underflow: `n` = 2 of a full count of 3. -/
theorem witness_NextUnderflowComesAfterAFullCount :
    Inv (atZero false true) ∧ (atZero false true).cnt.underflowDue = true ∧
    (∃ t, exec .edge (atZero false true) = .next t) ∧
    2 + 1 = ((atZero false true).cnt.cntTop.toNat + 1) * (atZero false true).cnt.osr.toNat :=
  ⟨inv_atZero, by decide, ⟨_, rfl⟩, by decide⟩

theorem witness_EveryUnderflowHasItsOwnReaction :
    (∃ t, execAll [.edge, .utlSvc] (atZero false true) = .next t) ∧ Instr.rst ∉ [Instr.edge, .utlSvc] ∧
    (atZero false true).cnt.ufPending = false ∧ coalescingFree [.edge, .utlSvc] (atZero false true) = true ∧
    underflowCount [.edge, .utlSvc] (atZero false true) = 1 :=
  ⟨⟨_, rfl⟩, by decide, by decide, by decide, by decide⟩

/-- The state after a service, told to enable what is enabled: it stays. -/
def served : State :=
  let s := atZero false true
  { s with cnt := { s.cnt with outLevel := true }, output := .response 0 }

/-- A request served at once, and then `IRQ.EN` for ever. -/
theorem witness_FairLatchServesEveryRequest :
    ∃ ops states, IsTrace ops states ∧ FairLatch ops states ∧ (states 0).cnt.irq = true := by
  refine ⟨fun n => if n = 0 then .utlSvc else .irqEn,
    fun n => if n = 0 then atZero true true else if n = 1 then { served with output := .silent } else served, ?_, ?_, rfl⟩
  · intro n
    match n with
    | 0 => rfl
    | 1 => rfl
    | _ + 2 => rfl
  · intro n
    refine ⟨n + 1, by omega, .inl ?_⟩
    cases n <;> rfl

/-- An engine whose master has stopped: both slots full in WAIT_TX. -/
def stalled : State := { engine true true .waitTx with cnt := served.cnt, output := .response 0 }

/-- A received byte that waits for a stopped master, for ever. -/
theorem witness_FairSequencerTakesEveryReceive :
    ∃ ops states, IsTrace ops states ∧ FairSequencer ops states ∧ Inv (states 0) ∧ (states 0).eng.rxFull = true :=
  ⟨fun _ => .irqEn, fun _ => stalled, fun _ => rfl, fun n => ⟨n, le_refl n, .inl rfl⟩,
    by refine ⟨by decide, ?_, ?_⟩ <;> constructor <;> decide, rfl⟩

/-- The next state of `ENG.RXST` on an engine with a byte to store, answering an `IRQ.EN`. -/
def stored : State :=
  let s := engine false true .waitTx
  { s with
    cnt := served.cnt, eng := { s.eng with rxBuf := [(0, 0x01)], rxWr := 1 }, output := .response 0 }

/-- A received byte stored at once, with no exchange between: the byte that stood in the slot. -/
theorem witness_FairSequencer_stores :
    ∃ ops states, IsTrace ops states ∧ FairSequencer ops states ∧ Inv (states 0) ∧ (states 0).eng.rxFull = true ∧
      ops 0 = .engRxst ∧ (states 1).eng.memRead .rx (states 0).eng.rxWr = (states 0).eng.rxSlot := by
  refine ⟨fun n => if n = 0 then .engRxst else .irqEn,
    fun n => if n = 0 then { engine true true .waitRx with cnt := served.cnt }
      else if n = 1 then { stored with output := .silent } else stored, ?_, ?_, ?_, rfl, rfl, rfl⟩
  · intro n
    match n with
    | 0 => rfl
    | 1 => rfl
    | _ + 2 => rfl
  · intro n
    refine ⟨n + 1, by omega, .inl ?_⟩
    cases n <;> rfl
  · refine ⟨by decide, ?_, ?_⟩ <;> constructor <;> decide

theorem witness_StoresAndLoadsAlternate :
    ∃ t, execAll [.xchg 5, .engRxst, .engTxld] (engine false true .waitRx) = .next t ∧
      Instr.rst ∉ [Instr.xchg 5, .engRxst, .engTxld] ∧ (engine false true .waitRx).eng.engPhase = .waitRx :=
  ⟨_, rfl, by decide, by decide⟩

theorem witness_FillingWritesEveryCellOnce :
    Inv (State.resetWith ⟨1, .any⟩) ∧ (State.resetWith ⟨1, .any⟩).eng.engEn = false ∧
      [(5 : Byte)].length = (State.resetWith ⟨1, .any⟩).params.cap :=
  ⟨inv_reset_cap_one, by decide, by decide⟩

/-- A run for `CAP` = 1 with steps of other agents and a read between. -/
theorem witness_HazardFreeRunStreamsAreExact :
    let s := State.resetWith ⟨1, .any⟩
    let is : List Instr := [.edge, .rst, .irqEn, .txPut 0x5A, .engPreload, .statRd, .engEn]
    let js : List Instr := [.xchg 0x10, .edge, .engRxst, .rxGet, .engTxld]
    s.params.wellFormed = true ∧ [(0x5A : Byte)].length = s.params.cap ∧
    is.filter drivesEngine = .rst :: Instr.txFill [0x5A] ++ [.engPreload, .engEn] ∧
    js.filter drivesEngine = Instr.cycles [0x10] ∧
    (∃ r t, execAll is s = .next r ∧ execAll js r = .next t) :=
  ⟨by decide, by decide, by decide, by decide, _, _, rfl, rfl⟩

end Sys2Proof.Tests
end

section
/-! PROOFS. The two halves are independent (00_scope R3): what an operation of one half can change, said once. -/

namespace Sys2Proof.Machine

variable {i : Instr} {s t : State}

/-- An operation of the counter half alone, and the status read, update the counter half and the output, nothing else. -/
theorem exec_next_updates_cnt_only (h : exec i s = .next t) (hi : touchesEngine i = false ∨ i = .statRd) :
    ∃ c o, t = { s with cnt := c, output := o } := by
  cases i with
  | cntCfg top init dir osr =>
    obtain ⟨-, rfl⟩ | ⟨-, -, -, rfl⟩ | ⟨-, -, -, rfl⟩ := execCntCfg_next h <;> exact ⟨_, _, rfl⟩
  | cntRd => obtain ⟨-, rfl⟩ | ⟨-, rfl⟩ := execCntRd_next h <;> exact ⟨_, _, rfl⟩
  | irqEn => exact ⟨_, _, execIrqEn_next h⟩
  | outSet lvl => obtain ⟨-, rfl⟩ | ⟨-, rfl⟩ := execOutSet_next h <;> exact ⟨_, _, rfl⟩
  | statRd => obtain ⟨-, rfl⟩ | ⟨-, rfl⟩ := execStatRd_next h <;> exact ⟨_, _, rfl⟩
  | edge => exact ⟨_, _, execEdge_next h⟩
  | utlSvc => exact ⟨_, _, (execUtlSvc_next h).2⟩
  | txPut | rxGet | engPreload | engEn | xchg | rst | engRxst | engTxld => simp [touchesEngine] at hi

/-- An operation of the engine half alone updates the engine half and the output, nothing else. -/
theorem exec_next_updates_eng_only (h : exec i s = .next t) (hi : touchesCounter i = false) :
    ∃ e o, t = { s with eng := e, output := o } := by
  cases i with
  | txPut b => obtain ⟨-, rfl⟩ | ⟨-, rfl⟩ := execTxPut_next h <;> exact ⟨_, _, rfl⟩
  | rxGet => exact ⟨_, _, execRxGet_next h⟩
  | engPreload => obtain ⟨-, rfl⟩ | ⟨-, rfl⟩ := execEngPreload_next h <;> exact ⟨_, _, rfl⟩
  | engEn => obtain ⟨-, rfl⟩ | ⟨-, rfl⟩ := execEngEn_next h <;> exact ⟨_, _, rfl⟩
  | xchg m => obtain ⟨-, rfl⟩ | ⟨-, rfl⟩ := execXchg_next h <;> exact ⟨_, _, rfl⟩
  | engRxst => exact ⟨_, _, (execEngRxst_next h).2⟩
  | engTxld => exact ⟨_, _, (execEngTxld_next h).2⟩
  | cntCfg | cntRd | irqEn | outSet | statRd | edge | rst | utlSvc => simp [touchesCounter] at hi

/-- `STAT.RD` touches the engine half only to read it (43_system_ops R250), so `RST` alone writes in both halves. -/
theorem touches_one_half_or_rst (i : Instr) :
    touchesCounter i = false ∨ (touchesEngine i = false ∨ i = .statRd) ∨ i = .rst := by
  cases i <;> simp [touchesCounter, touchesEngine]

/-- No operation changes the parameters, the waiting arrivals or the turn. -/
theorem exec_next_keeps_surroundings (h : exec i s = .next t) :
    t.params = s.params ∧ t.inputs = s.inputs ∧ t.turn = s.turn := by
  obtain hi | hi | rfl := touches_one_half_or_rst i
  · obtain ⟨e, o, rfl⟩ := exec_next_updates_eng_only h hi
    exact ⟨rfl, rfl, rfl⟩
  · obtain ⟨c, o, rfl⟩ := exec_next_updates_cnt_only h hi
    exact ⟨rfl, rfl, rfl⟩
  · obtain rfl := execRst_next h
    exact ⟨rfl, rfl, rfl⟩

/-- Settles O34: each operation but `RST` is an update of one half, and the other half is a field that update leaves. -/
theorem operationsStayInTheirHalf : Obligations.OperationsStayInTheirHalf := by
  intro i s t h
  refine ⟨fun hi => ?_, fun hi => ?_, exec_next_keeps_surroundings h⟩
  · obtain ⟨e, o, rfl⟩ := exec_next_updates_eng_only h hi
    rfl
  · obtain ⟨c, o, rfl⟩ := exec_next_updates_cnt_only h hi
    rfl

end Sys2Proof.Machine
end

section
/-! PROOFS. What one operation can make of each half, said once as a relation: the statements about writers, about the
invariants and about the configuration state are read off its cases. -/

namespace Sys2Proof.Machine

/-- What an operation can make of the counter half: one case per way its variables change (10_state R46). -/
inductive CounterMove : Instr → CounterHalf → CounterHalf → Prop where
  /-- every variable stays; free values may have been drawn -/
  | idle (i : Instr) (c : CounterHalf) (n : Nat) : CounterMove i c { c with draws := n }
  | arm {c : CounterHalf} {top init : Half} (dir : Direction) {osr : Byte} (hc : c.configured = false)
      (he : c.cfgErr = false) (hl : legalCfg top init osr = true) :
      CounterMove (.cntCfg top init dir osr) c
        { c with cntTop := top, cntValue := init, cntDir := dir, osr := osr, edgeCnt := 0, configured := true }
  | latchError {c : CounterHalf} (top init : Half) (dir : Direction) (osr : Byte) (hc : c.configured = false)
      (he : c.cfgErr = false) : CounterMove (.cntCfg top init dir osr) c { c with cfgErr := true }
  | count (c : CounterHalf) : CounterMove .edge c c.rawEdge
  | enable (c : CounterHalf) : CounterMove .irqEn c { c with ufIen := true }
  | setOut {c : CounterHalf} (lvl : Bool) (hc : c.configured = false) :
      CounterMove (.outSet lvl) c { c with outLevel := lvl }
  | serve (c : CounterHalf) : CounterMove .utlSvc c c.takeUnderflowService
  | reset (c : CounterHalf) : CounterMove .rst c c.afterRst

/-- What an operation can make of the engine half: one case per way its variables change (10_state R46). -/
inductive EngineMove (p : Config.Params) : Instr → EngineHalf → EngineHalf → Prop where
  /-- every variable stays; free values may have been drawn -/
  | idle (i : Instr) (e : EngineHalf) (n : Nat) : EngineMove p i e { e with draws := n }
  | put {e : EngineHalf} (b : Byte) (hn : e.engEn = false) : EngineMove p (.txPut b) e (e.putTx p.cap b)
  | pass (e : EngineHalf) : EngineMove p .rxGet e (e.passRx p.cap)
  | preload (e : EngineHalf) : EngineMove p .engPreload e e.preloadTx
  | enable (e : EngineHalf) : EngineMove p .engEn e { e with engEn := true }
  | exchange {e : EngineHalf} (m : Byte) (hn : e.engEn = true) :
      EngineMove p (.xchg m) e (e.exchange p.overrun m)
  | store {e : EngineHalf} (hf : e.rxFull = true) :
      EngineMove p .engRxst e { e.storeRx p.cap with rxFull := false, engPhase := .waitTx }
  | load (e : EngineHalf) : EngineMove p .engTxld e { e.loadTx p.cap with engPhase := .waitRx }
  | reset (e : EngineHalf) : EngineMove p .rst e (e.afterRst p.cap)

section
variable {i : Instr} {s t : State}

theorem exec_next_counterMove (h : exec i s = .next t) : CounterMove i s.cnt t.cnt := by
  cases i with
  | cntCfg top init dir osr =>
    obtain ⟨-, rfl⟩ | ⟨hc, he, hl, rfl⟩ | ⟨hc, he, -, rfl⟩ := execCntCfg_next h
    · exact .idle ..
    · exact .arm dir hc he hl
    · exact .latchError top init dir osr hc he
  | cntRd => obtain ⟨-, rfl⟩ | ⟨-, rfl⟩ := execCntRd_next h <;> exact .idle ..
  | irqEn => obtain rfl := execIrqEn_next h; exact .enable _
  | outSet lvl =>
    obtain ⟨-, rfl⟩ | ⟨hc, rfl⟩ := execOutSet_next h
    · exact .idle ..
    · exact .setOut lvl hc
  | statRd => obtain ⟨-, rfl⟩ | ⟨-, rfl⟩ := execStatRd_next h <;> exact .idle ..
  | edge => obtain rfl := execEdge_next h; exact .count _
  | rst => obtain rfl := execRst_next h; exact .reset _
  | utlSvc => obtain ⟨-, rfl⟩ := execUtlSvc_next h; exact .serve _
  | txPut | rxGet | engPreload | engEn | xchg | engRxst | engTxld =>
    rw [(operationsStayInTheirHalf _ s t h).1 rfl]
    exact .idle ..

theorem exec_next_engineMove (h : exec i s = .next t) : EngineMove s.params i s.eng t.eng := by
  cases i with
  | txPut b =>
    obtain ⟨-, rfl⟩ | ⟨hn, rfl⟩ := execTxPut_next h
    · exact .idle ..
    · exact .put b hn
  | rxGet => obtain rfl := execRxGet_next h; exact .pass _
  | engPreload =>
    obtain ⟨-, rfl⟩ | ⟨-, rfl⟩ := execEngPreload_next h
    · exact .idle ..
    · exact .preload _
  | engEn =>
    obtain ⟨-, rfl⟩ | ⟨-, rfl⟩ := execEngEn_next h
    · exact .idle ..
    · exact .enable _
  | xchg m =>
    obtain ⟨hn, rfl⟩ | ⟨-, rfl⟩ := execXchg_next h
    · exact .exchange m hn
    · exact .idle ..
  | rst => obtain rfl := execRst_next h; exact .reset _
  | engRxst => obtain ⟨⟨-, hf⟩, rfl⟩ := execEngRxst_next h; exact .store hf
  | engTxld => obtain ⟨-, rfl⟩ := execEngTxld_next h; exact .load _
  | cntCfg | cntRd | irqEn | outSet | statRd | edge | utlSvc =>
    rw [(operationsStayInTheirHalf _ s t h).2.1 (by simp [touchesEngine])]
    exact .idle ..

/-- Everything a step of the machine can do: it runs one operation, or it takes an arrival or waits and changes nothing
else but the output. -/
theorem step_next_cases (h : step s = .next t) :
    (∃ i q n, exec i { s with inputs := q, turn := n } = .next t) ∨
    (∃ q o, t = { s with inputs := q, output := o }) := by
  simp only [step, takeStep] at h
  split at h
  next a rest _ =>
    simp only [deliver] at h
    split at h
    next i _ => exact .inl ⟨i, rest, s.turn, h⟩
    next => exact .inr ⟨rest, _, (Host.Outcome.next.inj h).symm⟩
    next => cases h
  next hq =>
    split at h
    next i _ => exact .inl ⟨i, s.inputs, s.turn + 1, h⟩
    next => exact .inr ⟨s.inputs, _, (Host.Outcome.next.inj h).symm⟩

end

/-! What a raw edge leaves unchanged (40_counter R147). -/

section
variable (c : CounterHalf)

@[simp] theorem CounterHalf.rawEdge_cntTop : c.rawEdge.cntTop = c.cntTop := by rw [c.rawEdge_frame]
@[simp] theorem CounterHalf.rawEdge_cntDir : c.rawEdge.cntDir = c.cntDir := by rw [c.rawEdge_frame]
@[simp] theorem CounterHalf.rawEdge_osr : c.rawEdge.osr = c.osr := by rw [c.rawEdge_frame]
@[simp] theorem CounterHalf.rawEdge_configured : c.rawEdge.configured = c.configured := by rw [c.rawEdge_frame]
@[simp] theorem CounterHalf.rawEdge_cfgErr : c.rawEdge.cfgErr = c.cfgErr := by rw [c.rawEdge_frame]
@[simp] theorem CounterHalf.rawEdge_ufPending : c.rawEdge.ufPending = (c.ufPending || c.underflowDue) := by
  rw [c.rawEdge_frame]
@[simp] theorem CounterHalf.rawEdge_ufIen : c.rawEdge.ufIen = c.ufIen := by rw [c.rawEdge_frame]
@[simp] theorem CounterHalf.rawEdge_outLevel : c.rawEdge.outLevel = c.outLevel := by rw [c.rawEdge_frame]

end

end Sys2Proof.Machine
end

section
/-! PROOFS. The writers of each half (10_state R46), the configuration state (R28) and the outbound buffer of an enabled
engine (R54 (d)), read off the moves. -/

namespace Sys2Proof.Machine

/-! The writers (10_state R46). -/

/-- Settles O32: no case of `CounterMove` but `RST` writes a variable that is not its own. -/
theorem counterHalfWriters : Obligations.CounterHalfWriters := by
  intro i s t h hi
  have hm := exec_next_counterMove h
  generalize s.cnt = c, t.cnt = c' at hm ⊢
  cases hm with
  | idle | arm | latchError | enable | serve => simp
  | count =>
    rw [c.rawEdge_ufPending]
    cases c.ufPending <;> simp
  | setOut lvl hc => simp [hc]
  | reset => exact absurd rfl hi

section
variable {p : Config.Params} {i : Instr} {e e' : EngineHalf}

/-- `ENG.RXST` alone writes the inbound buffer (20_memory R75). -/
theorem EngineMove.rx_cell_writer (h : EngineMove p i e e') (hi : i ≠ .rst) (a : Nat)
    (ha : e'.memRead .rx a ≠ e.memRead .rx a) : i = .engRxst ∧ a = e.rxWr := by
  cases h with
  | store hf =>
    refine ⟨rfl, by_contra fun hne => ha ?_⟩
    exact (e.memRead_storeRx p.cap a).trans (if_neg hne)
  | reset => exact absurd rfl hi
  | idle | put | pass | preload | enable | exchange | load => exact absurd rfl ha

/-- `TX.PUT` alone writes the outbound buffer (20_memory R75). -/
theorem EngineMove.tx_cell_writer (h : EngineMove p i e e') (hi : i ≠ .rst) (a : Nat)
    (ha : e'.memRead .tx a ≠ e.memRead .tx a) : (∃ b, i = .txPut b) ∧ a = e.txWr := by
  cases h with
  | put b hn =>
    refine ⟨⟨b, rfl⟩, by_contra fun hne => ha ?_⟩
    exact (e.memRead_putTx p.cap b a).trans (if_neg hne)
  | reset => exact absurd rfl hi
  | idle | pass | preload | enable | exchange | store | load => exact absurd rfl ha

end

/-- Settles O33: no case of `EngineMove` but `RST` writes a variable or a cell that is not its own. -/
theorem engineHalfWriters : Obligations.EngineHalfWriters := by
  intro i s t h hi
  have hm := exec_next_engineMove h
  refine ⟨hm.rx_cell_writer hi, hm.tx_cell_writer hi, ?_⟩
  generalize s.eng = e, t.eng = e' at hm ⊢
  cases hm with
  | idle | put | pass | preload | enable | exchange | store | load => simp
  | reset => exact absurd rfl hi

/-! The configuration state (10_state R28). -/

/-- An operation keeps the configuration state, or is `CNT.CFG` from UNCONF or `RST` to UNCONF. -/
theorem CounterMove.cfgState_cases {i : Instr} {c c' : CounterHalf} (h : CounterMove i c c') :
    c'.cfgState = c.cfgState ∨
    (c.cfgState = some .unconf ∧ ∃ top init dir osr, i = .cntCfg top init dir osr) ∨
    (c'.cfgState = some .unconf ∧ i = .rst) := by
  cases h with
  | arm _ hc he _ | latchError _ _ _ _ hc he =>
    exact .inr (.inl ⟨by simp [CounterHalf.cfgState, hc, he], _, _, _, _, rfl⟩)
  | reset => exact .inr (.inr ⟨rfl, rfl⟩)
  | count => exact .inl (by simp [CounterHalf.cfgState])
  | idle | enable | setOut | serve => exact .inl rfl

/-- Outside (1,1) the pair (`configured`, `cfg_err`) names a configuration state. -/
theorem CounterHalf.cfgState_of_exclusive {c : CounterHalf} (h : ¬ (c.configured = true ∧ c.cfgErr = true)) :
    ∃ a, c.cfgState = some a := by
  unfold CounterHalf.cfgState
  cases hc : c.configured <;> cases he : c.cfgErr
  · exact ⟨_, rfl⟩
  · exact ⟨_, rfl⟩
  · exact ⟨_, rfl⟩
  · exact absurd ⟨hc, he⟩ h

/-- Settles O36: the invariant shuts (1,1) out, and `CounterMove` leaves `CNT.CFG` and `RST` as the only transitions. -/
theorem configurationStateTransitions : Obligations.ConfigurationStateTransitions := by
  refine ⟨fun s hs => CounterHalf.cfgState_of_exclusive hs.counter.exclusive, ?_⟩
  intro i s t a b h ha hb hab
  obtain hsame | ⟨hu, hi⟩ | ⟨hu, hi⟩ := (exec_next_counterMove h).cfgState_cases
  · exact absurd (Option.some.inj (ha.symm.trans (hsame.symm.trans hb))) hab
  · exact .inl ⟨Option.some.inj (ha.symm.trans hu), hi⟩
  · exact .inr ⟨Option.some.inj (hb.symm.trans hu), hi⟩

/-! The enabled engine (10_state R54 (d)). -/

/-- With the engine enabled, an operation other than `RST` keeps it enabled and leaves the outbound buffer alone. -/
theorem EngineMove.keeps_tx_of_enabled {p : Config.Params} {i : Instr} {e e' : EngineHalf}
    (h : EngineMove p i e e') (hi : i ≠ .rst) (hn : e.engEn = true) :
    e'.engEn = true ∧ e'.txBuf = e.txBuf ∧ e'.txWr = e.txWr ∧ e'.fill = e.fill := by
  cases h with
  | put b hd => simp [hn] at hd
  | reset => exact absurd rfl hi
  | enable => exact ⟨rfl, rfl, rfl, rfl⟩
  | idle | pass | preload | exchange | store | load => exact ⟨hn, rfl, rfl, rfl⟩

/-- Settles O41: the frame of each operation on the outbound buffer of an enabled engine, carried along the trace. -/
theorem enabledEngineKeepsItsTransmitBuffer : Obligations.EnabledEngineKeepsItsTransmitBuffer := by
  intro is s t h hn hrst
  obtain ⟨hen, hbuf, hwr, hfill⟩ : t.eng.engEn = true ∧ t.eng.txBuf = s.eng.txBuf ∧
      t.eng.txWr = s.eng.txWr ∧ t.eng.fill = s.eng.fill := by
    refine execAll_keeps (P := fun u => u.eng.engEn = true ∧ u.eng.txBuf = s.eng.txBuf ∧
      u.eng.txWr = s.eng.txWr ∧ u.eng.fill = s.eng.fill) ?_ h ⟨hn, rfl, rfl, rfl⟩
    rintro i hi u v huv ⟨hen, hbuf, hwr, hfill⟩
    rw [← hbuf, ← hwr, ← hfill]
    exact (exec_next_engineMove huv).keeps_tx_of_enabled (fun hr => hrst (hr ▸ hi)) hen
  exact ⟨hen, hbuf, hwr, EngineHalf.memRead_tx_congr hbuf hfill⟩

end Sys2Proof.Machine
end

section
/-! PROOFS. The invariants (10_state R53, R54): what has them at reset, and that every operation and every step keeps them. -/

namespace Sys2Proof.Machine

theorem one_le_cap_of_wellFormed {p : Config.Params} (h : p.wellFormed = true) : 1 ≤ p.cap := by
  simp only [Config.Params.wellFormed, Bool.and_eq_true, decide_eq_true_eq] at h
  exact h.1

/-! The counter half. -/

section
variable {c : CounterHalf}

/-- Before configuration R53 asks only that no underflow request is pending. -/
theorem CounterInv.of_unconfigured (hc : c.configured = false) (hp : c.ufPending = false) : CounterInv c := by
  constructor <;> simp [hc, hp]

theorem CounterInv.not_pending (h : CounterInv c) (hc : c.configured = false) : c.ufPending = false :=
  Bool.eq_false_iff.mpr fun hp => by simpa [hc] using h.pending_armed hp

/-- A raw edge stays inside the bounds of R53 (b). -/
theorem CounterInv.rawEdge_bounds (h : CounterInv c) (hc : c.configured = true) :
    c.rawEdge.cntValue.toNat ≤ c.cntTop.toNat ∧ c.rawEdge.edgeCnt.toNat < c.osr.toNat := by
  have hv := h.value_le_top hc
  have hr := h.ratio_pos hc
  obtain ⟨hn, -⟩ | ⟨-, hlt, e⟩ | ⟨-, -, -, -, e⟩ | ⟨-, -, -, hz, e⟩ | ⟨-, -, -, -, e⟩ | ⟨-, -, -, hne, e⟩ :=
    c.rawEdge_cases
  · simp [hc] at hn
  · rw [e]
    exact ⟨hv, by bv_omega⟩
  · rw [e]
    exact ⟨le_rfl, hr⟩
  · rw [e]
    exact ⟨by bv_omega, hr⟩
  · rw [e]
    exact ⟨Nat.zero_le _, hr⟩
  · rw [e]
    exact ⟨by bv_omega, hr⟩

theorem CounterInv.rawEdge (h : CounterInv c) : CounterInv c.rawEdge where
  exclusive := by simpa using h.exclusive
  value_le_top hc := by simpa using (h.rawEdge_bounds (by simpa using hc)).1
  top_le_max hc := by simpa using h.top_le_max (by simpa using hc)
  ratio_pos hc := by simpa using h.ratio_pos (by simpa using hc)
  edge_lt_ratio hc := by simpa using (h.rawEdge_bounds (by simpa using hc)).2
  pending_armed hp := by
    rw [c.rawEdge_ufPending, Bool.or_eq_true] at hp
    rw [c.rawEdge_configured]
    exact hp.elim h.pending_armed fun hu => (c.underflowDue_iff.mp hu).1

theorem CounterMove.keeps_inv {i : Instr} {c c' : CounterHalf} (h : CounterMove i c c') (hinv : CounterInv c) :
    CounterInv c' := by
  cases h with
  | idle | enable | setOut => exact { hinv with }
  | arm dir hc he hl =>
    obtain ⟨hvalue, htop, hratio⟩ := legalCfg_bounds hl
    exact {
      exclusive := by simp [he]
      value_le_top := fun _ => hvalue
      top_le_max := fun _ => htop
      ratio_pos := fun _ => hratio
      edge_lt_ratio := fun _ => hratio
      pending_armed := fun _ => rfl }
  | latchError _ _ _ _ hc => exact .of_unconfigured hc (hinv.not_pending hc)
  | count => exact hinv.rawEdge
  | serve => exact { hinv with pending_armed := by simp }
  | reset => exact .of_unconfigured rfl rfl

end

/-! The engine half. -/

section
variable {p : Config.Params} {i : Instr} {e e' : EngineHalf}

theorem EngineInv.afterRst (hcap : 1 ≤ p.cap) (e : EngineHalf) : EngineInv p.cap (e.afterRst p.cap) where
  rxWr_lt := hcap
  rxRd_lt := hcap
  txWr_lt := hcap
  txRd_lt := Nat.mod_lt 1 hcap
  full_enabled := by simp
  waitTx_enabled := by simp
  rx_wf := rfl
  tx_wf := rfl
  rx_within := rfl
  tx_within := rfl

theorem EngineMove.keeps_inv (h : EngineMove p i e e') (hcap : 1 ≤ p.cap) (hinv : EngineInv p.cap e) :
    EngineInv p.cap e' := by
  cases h with
  | idle | preload => exact { hinv with }
  | put b hn =>
    exact { hinv with
      txWr_lt := advance_lt _ hcap
      tx_wf := Memory.wf_write _ _ _ hinv.tx_wf
      tx_within := Memory.within_write _ _ _ _ hinv.txWr_lt hinv.tx_within }
  | pass => exact { hinv with rxRd_lt := advance_lt _ hcap }
  | enable => exact { hinv with full_enabled := fun _ => rfl, waitTx_enabled := fun _ => rfl }
  | exchange m hn => exact { hinv with full_enabled := fun _ => hn }
  | store hf =>
    exact { hinv with
      rxWr_lt := advance_lt _ hcap
      rx_wf := Memory.wf_write _ _ _ hinv.rx_wf
      rx_within := Memory.within_write _ _ _ _ hinv.rxWr_lt hinv.rx_within
      full_enabled := by simp
      waitTx_enabled := fun _ => hinv.full_enabled hf }
  | load =>
    exact { hinv with
      txRd_lt := advance_lt _ hcap
      waitTx_enabled := by simp }
  | reset => exact .afterRst hcap e

end

/-! The core. -/

/-- Settles O46: the parameters stay, and each half's invariant is kept by every move of that half. -/
theorem everyInstructionKeepsTheInvariant : Obligations.EveryInstructionKeepsTheInvariant := by
  intro i s t hs h
  have hp : t.params = s.params := (exec_next_keeps_surroundings h).1
  have hcap : 1 ≤ s.params.cap := one_le_cap_of_wellFormed hs.params
  exact {
    params := hp ▸ hs.params
    counter := (exec_next_counterMove h).keeps_inv hs.counter
    engine := hp ▸ (exec_next_engineMove h).keeps_inv hcap hs.engine }

/-- Settles O47: a step runs an operation or touches neither half, and the invariant does not look at the waiting
arrivals, the turn or the output. -/
theorem everyStepKeepsTheInvariant : Obligations.EveryStepKeepsTheInvariant := by
  intro s t hs h
  obtain ⟨i, q, n, h⟩ | ⟨q, o, rfl⟩ := step_next_cases h
  · exact everyInstructionKeepsTheInvariant i { s with inputs := q, turn := n } t
      ⟨hs.params, hs.counter, hs.engine⟩ h
  · exact ⟨hs.params, hs.counter, hs.engine⟩

/-- Settles O45: the reset value of each variable is within its bound, and both memories are empty. -/
theorem invariantHoldsAtReset : Obligations.InvariantHoldsAtReset := by
  have hreset : ∀ p : Config.Params, p.wellFormed = true → Inv (State.resetWith p) := fun p hp => {
    params := hp
    counter := .of_unconfigured rfl rfl
    engine := { EngineInv.afterRst (one_le_cap_of_wellFormed hp) (EngineHalf.reset p.cap) with } }
  exact ⟨hreset _ (by decide), hreset⟩

/-! The widths (10_state R21, R35). -/

/-- An index below the capacity fits `IDX_W` bits (00_scope R12). -/
theorem lt_two_pow_idxW {cap k : Nat} (h : k < cap) : k < 2 ^ Config.idxW cap :=
  calc k < cap := h
    _ ≤ 2 ^ Nat.clog 2 cap := Nat.le_pow_clog (by decide) cap
    _ ≤ 2 ^ Config.idxW cap := Nat.pow_le_pow_right (by decide) (le_max_right ..)

/-- A register up to `TOP_MAX` has bit 15 = 0, and both readings agree (00_scope R9). -/
theorem msb_false_and_toInt_of_le_topMax {x : Half} (h : x.toNat ≤ Config.topMax) :
    x.msb = false ∧ x.toInt = x.toNat := by
  have hmsb : x.msb = false := by
    rw [BitVec.msb_eq_false_iff_two_mul_lt]
    have : Config.topMax = 32767 := rfl
    omega
  exact ⟨hmsb, BitVec.toInt_eq_toNat_of_msb hmsb⟩

/-- Settles O48: the bounds of R53 (b) and R54 (a), read as widths. -/
theorem registersFitTheirWidths : Obligations.RegistersFitTheirWidths := by
  intro s hs
  refine ⟨fun hc => ?_, lt_two_pow_idxW hs.engine.rxWr_lt, lt_two_pow_idxW hs.engine.rxRd_lt,
    lt_two_pow_idxW hs.engine.txWr_lt, lt_two_pow_idxW hs.engine.txRd_lt⟩
  have htop := hs.counter.top_le_max hc
  obtain ⟨hvm, hvi⟩ := msb_false_and_toInt_of_le_topMax ((hs.counter.value_le_top hc).trans htop)
  obtain ⟨htm, hti⟩ := msb_false_and_toInt_of_le_topMax htop
  exact ⟨hvm, htm, hvi, hti⟩

/-- Settles O23: `RST` has one path, and its next state is written out by `afterRst` of each half. -/
theorem rstResetsEveryVariable : Obligations.RstResetsEveryVariable := by
  intro s
  exact ⟨silent { s with cnt := s.cnt.afterRst, eng := s.eng.afterRst s.params.cap }, rfl, by simp [silent]⟩

end Sys2Proof.Machine
end

section
/-! PROOFS. What is unspecified stays confined (10_state R61): blanking everything unspecified before an operation that uses
none of it changes nothing specified in the outcome. A claim about two states that agree on everything specified then
compares each run with the run from the one blanked state. -/

namespace Sys2Proof.Machine

/-! The counter half: what blanking leaves, and that each update forgets it. -/

section
variable {c c' : CounterHalf}

@[simp] theorem CounterHalf.known_cntValue (c : CounterHalf) :
    c.known.cntValue = if c.configured then c.cntValue else 0 := by unfold known; split <;> rfl
@[simp] theorem CounterHalf.known_cntTop (c : CounterHalf) :
    c.known.cntTop = if c.configured then c.cntTop else 0 := by unfold known; split <;> rfl
@[simp] theorem CounterHalf.known_cntDir (c : CounterHalf) :
    c.known.cntDir = if c.configured then c.cntDir else .down := by unfold known; split <;> rfl
@[simp] theorem CounterHalf.known_osr (c : CounterHalf) :
    c.known.osr = if c.configured then c.osr else 0 := by unfold known; split <;> rfl
@[simp] theorem CounterHalf.known_edgeCnt (c : CounterHalf) : c.known.edgeCnt = c.edgeCnt := by
  unfold known; split <;> rfl
@[simp] theorem CounterHalf.known_configured (c : CounterHalf) : c.known.configured = c.configured := by
  unfold known; split <;> rfl
@[simp] theorem CounterHalf.known_cfgErr (c : CounterHalf) : c.known.cfgErr = c.cfgErr := by
  unfold known; split <;> rfl
@[simp] theorem CounterHalf.known_ufPending (c : CounterHalf) : c.known.ufPending = c.ufPending := by
  unfold known; split <;> rfl
@[simp] theorem CounterHalf.known_ufIen (c : CounterHalf) : c.known.ufIen = c.ufIen := by
  unfold known; split <;> rfl
@[simp] theorem CounterHalf.known_outLevel (c : CounterHalf) : c.known.outLevel = c.outLevel := by
  unfold known; split <;> rfl
@[simp] theorem CounterHalf.known_irq (c : CounterHalf) : c.known.irq = c.irq := by simp [CounterHalf.irq]
@[simp] theorem utlGuard_known (c : CounterHalf) : utlGuard c.known = utlGuard c := c.known_irq

theorem CounterHalf.known_of_configured (h : c.configured = true) : c.known = { c with draws := 0 } := if_pos h

/-- Agreement on everything specified, variable by variable: the four registers of R61 count once the counter is configured. -/
theorem CounterHalf.known_eq_known_iff :
    c.known = c'.known ↔
      c.configured = c'.configured ∧ c.cfgErr = c'.cfgErr ∧ c.edgeCnt = c'.edgeCnt ∧
      c.ufPending = c'.ufPending ∧ c.ufIen = c'.ufIen ∧ c.outLevel = c'.outLevel ∧
      (c.configured = true →
        c.cntValue = c'.cntValue ∧ c.cntTop = c'.cntTop ∧ c.cntDir = c'.cntDir ∧ c.osr = c'.osr) := by
  unfold CounterHalf.known
  cases h : c.configured <;> cases h' : c'.configured <;> simp <;> tauto

@[simp] theorem CounterHalf.known_underflowDue (c : CounterHalf) : c.known.underflowDue = c.underflowDue := by
  cases h : c.configured
  · simp [CounterHalf.underflowDue, CounterHalf.pulseDue, h]
  · rw [CounterHalf.known_of_configured h]
    rfl

@[simp] theorem CounterHalf.known_known (c : CounterHalf) : c.known.known = c.known := by
  simp +contextual [CounterHalf.known_eq_known_iff]

@[simp] theorem CounterHalf.known_takeUnderflowService (c : CounterHalf) :
    c.known.takeUnderflowService.known = c.takeUnderflowService.known := by
  simp +contextual [CounterHalf.known_eq_known_iff]

/-- The draws play no part in a logical pulse. -/
theorem CounterHalf.logicalPulse_with_draws (c : CounterHalf) (n : Nat) :
    CounterHalf.logicalPulse { c with draws := n } = { c.logicalPulse with draws := n } := by
  unfold CounterHalf.logicalPulse
  dsimp only
  cases c.cntDir <;> dsimp only <;> split_ifs <;> rfl

/-- The draws play no part in a raw edge. -/
theorem CounterHalf.rawEdge_with_draws (c : CounterHalf) (n : Nat) :
    CounterHalf.rawEdge { c with draws := n } = { c.rawEdge with draws := n } := by
  unfold CounterHalf.rawEdge
  dsimp only
  split_ifs
  · rfl
  · exact CounterHalf.logicalPulse_with_draws { c with edgeCnt := 0 } n
  · rfl

/-- A raw edge of an unconfigured counter does nothing, and that of a configured one reads specified registers only. -/
@[simp] theorem CounterHalf.known_rawEdge (c : CounterHalf) : c.known.rawEdge.known = c.rawEdge.known := by
  cases h : c.configured
  · simp [CounterHalf.rawEdge, h]
  · rw [CounterHalf.known_of_configured h, c.rawEdge_with_draws]
    simp [CounterHalf.known_eq_known_iff]

@[simp] theorem CounterHalf.known_afterRst (c : CounterHalf) : c.known.afterRst.known = c.afterRst.known := rfl

end

/-! The engine half. -/

section
variable {e e' : EngineHalf}

@[simp] theorem EngineHalf.known_rxBuf (e : EngineHalf) : e.known.rxBuf = e.rxBuf := rfl
@[simp] theorem EngineHalf.known_txBuf (e : EngineHalf) : e.known.txBuf = e.txBuf := rfl
@[simp] theorem EngineHalf.known_rxWr (e : EngineHalf) : e.known.rxWr = e.rxWr := rfl
@[simp] theorem EngineHalf.known_rxRd (e : EngineHalf) : e.known.rxRd = e.rxRd := rfl
@[simp] theorem EngineHalf.known_txWr (e : EngineHalf) : e.known.txWr = e.txWr := rfl
@[simp] theorem EngineHalf.known_txRd (e : EngineHalf) : e.known.txRd = e.txRd := rfl
@[simp] theorem EngineHalf.known_rxSlot (e : EngineHalf) :
    e.known.rxSlot = if e.rxFull then e.rxSlot else 0 := rfl
@[simp] theorem EngineHalf.known_rxFull (e : EngineHalf) : e.known.rxFull = e.rxFull := rfl
@[simp] theorem EngineHalf.known_txSlot (e : EngineHalf) :
    e.known.txSlot = if e.txFull then e.txSlot else 0 := rfl
@[simp] theorem EngineHalf.known_txFull (e : EngineHalf) : e.known.txFull = e.txFull := rfl
@[simp] theorem EngineHalf.known_engEn (e : EngineHalf) : e.known.engEn = e.engEn := rfl
@[simp] theorem EngineHalf.known_engPhase (e : EngineHalf) : e.known.engPhase = e.engPhase := rfl
@[simp] theorem rxstGuard_known (e : EngineHalf) : rxstGuard e.known = rxstGuard e := rfl
@[simp] theorem txldGuard_known (e : EngineHalf) : txldGuard e.known = txldGuard e := rfl

/-- Agreement on everything specified, variable by variable: a slot counts while its full flag is set. -/
theorem EngineHalf.known_eq_known_iff :
    e.known = e'.known ↔
      e.rxBuf = e'.rxBuf ∧ e.txBuf = e'.txBuf ∧ e.rxWr = e'.rxWr ∧ e.rxRd = e'.rxRd ∧ e.txWr = e'.txWr ∧
      e.txRd = e'.txRd ∧ e.rxFull = e'.rxFull ∧ (e.rxFull = true → e.rxSlot = e'.rxSlot) ∧
      e.txFull = e'.txFull ∧ (e.txFull = true → e.txSlot = e'.txSlot) ∧
      e.engEn = e'.engEn ∧ e.engPhase = e'.engPhase := by
  unfold EngineHalf.known
  cases hr : e.rxFull <;> cases hr' : e'.rxFull <;> cases ht : e.txFull <;> cases ht' : e'.txFull <;>
    simp

@[simp] theorem EngineHalf.known_known (e : EngineHalf) : e.known.known = e.known := by
  simp +contextual [EngineHalf.known_eq_known_iff]

/-- A cell written since reset reads as that byte, whatever the filling. -/
theorem EngineHalf.known_memRead_of_written {sp : Config.Space} {a : Nat}
    (h : ((e.buf sp).read a).isNone = false) : e.known.memRead sp a = e.memRead sp a := by
  obtain ⟨b, hb⟩ := Option.isSome_iff_exists.mp (by simpa using h)
  have hb' : (e.known.buf sp).read a = some b := by cases sp <;> exact hb
  simp [EngineHalf.memRead, hb, hb']

theorem EngineHalf.known_misoByte_of_full (hn : e.engEn = true) (ht : e.txFull = true) :
    e.known.misoByte = e.misoByte := by
  simp [EngineHalf.misoByte, hn, ht]

@[simp] theorem EngineHalf.known_putTx (cap : Nat) (b : Byte) (e : EngineHalf) :
    (e.known.putTx cap b).known = (e.putTx cap b).known := by
  simp +contextual [EngineHalf.known_eq_known_iff]

@[simp] theorem EngineHalf.known_passRx (cap : Nat) (e : EngineHalf) :
    (e.known.passRx cap).known = (e.passRx cap).known := by
  simp +contextual [EngineHalf.known_eq_known_iff]

/-- Under the policy `any` an overrun leaves a free value in the receive slot; every other exchange stores a known byte. -/
theorem EngineHalf.known_exchange {p : Config.OverrunPolicy} (m : Byte) (h : e.rxFull = true → p ≠ .any) :
    (e.known.exchange p m).known = (e.exchange p m).known := by
  cases p <;> cases hr : e.rxFull <;> simp_all [EngineHalf.known_eq_known_iff, EngineHalf.overrunByte]

@[simp] theorem EngineHalf.known_afterRst (cap : Nat) (e : EngineHalf) :
    (e.known.afterRst cap).known = (e.afterRst cap).known := rfl

end

/-! The state and the outcome. -/

@[simp] theorem State.known_params (s : State) : s.known.params = s.params := rfl
@[simp] theorem State.known_cnt (s : State) : s.known.cnt = s.cnt.known := rfl
@[simp] theorem State.known_eng (s : State) : s.known.eng = s.eng.known := rfl
@[simp] theorem State.known_output (s : State) : s.known.output = s.output := rfl
@[simp] theorem State.known_inputs (s : State) : s.known.inputs = s.inputs := rfl

@[simp] theorem State.known_eq_known_iff {s s' : State} :
    s.known = s'.known ↔
      s.params = s'.params ∧ s.cnt.known = s'.cnt.known ∧ s.eng.known = s'.eng.known ∧
      s.output = s'.output ∧ s.inputs = s'.inputs := by
  simp [State.known]

theorem statWord_known (d : Bool) (c : CounterHalf) (e : EngineHalf) :
    statWord d c.known e.known = statWord d c e := by
  simp [statWord]

/-- An outcome with everything unspecified of its next state blanked. -/
def knownOutcome : Result → Result
  | .next t => .next t.known
  | .fault r => .fault r
  | .refused r => .refused r

@[simp] theorem knownOutcome_next (t : State) : knownOutcome (.next t) = .next t.known := rfl
@[simp] theorem knownOutcome_fault (r : Fault) : knownOutcome (.fault r) = .fault r := rfl

theorem knownOutcome_eq_next_iff {r : Result} {u : State} :
    knownOutcome r = .next u ↔ ∃ t, r = .next t ∧ t.known = u := by
  cases r <;> simp [knownOutcome]

theorem knownOutcome_eq_fault_iff {r : Result} {f : Fault} : knownOutcome r = .fault f ↔ r = .fault f := by
  cases r <;> simp [knownOutcome]

/-- An operation that uses no unspecified value does the same from the blanked state: per path of the operation, the shared
update it applies forgets the blanking, and what it puts out or stores is specified. -/
theorem knownOutcome_exec_known {i : Instr} {s : State} (hu : usesUnspecified i s = false) :
    knownOutcome (exec i s.known) = knownOutcome (exec i s) := by
  cases i with
  | cntCfg top init dir osr =>
    cases hc : s.cnt.configured <;> cases he : s.cnt.cfgErr <;> cases hl : legalCfg top init osr <;>
      simp [execCntCfg, refuse, hc, he, hl, CounterHalf.known_eq_known_iff]
  | cntRd =>
    have hc : s.cnt.configured = true := by simpa [usesUnspecified] using hu
    simp [execCntRd, hc]
  | irqEn => simp +contextual [execIrqEn, CounterHalf.known_eq_known_iff]
  | outSet lvl =>
    cases hc : s.cnt.configured <;> simp [execOutSet, refuse, hc, CounterHalf.known_eq_known_iff]
  | statRd =>
    have hc : s.cnt.configured = true := by simpa [usesUnspecified] using hu
    simp [execStatRd, hc, statWord_known]
  | txPut b =>
    cases hn : s.eng.engEn <;> simp [execTxPut, refuse, hn]
  | rxGet =>
    have hr : s.eng.known.memRead .rx s.eng.rxRd = s.eng.memRead .rx s.eng.rxRd :=
      EngineHalf.known_memRead_of_written hu
    simp [execRxGet, hr]
  | engPreload =>
    cases hn : s.eng.engEn
    · have hr : s.eng.known.memRead .tx 0 = s.eng.memRead .tx 0 :=
        EngineHalf.known_memRead_of_written (by simpa [usesUnspecified, hn, EngineHalf.buf, preloadIndex] using hu)
      simp +contextual [execEngPreload, hn, hr, EngineHalf.known_eq_known_iff]
    · simp [execEngPreload, refuse, hn]
  | engEn =>
    cases hn : s.eng.engEn <;> simp +contextual [execEngEn, refuse, hn, EngineHalf.known_eq_known_iff]
  | edge => simp [execEdge]
  | xchg m =>
    obtain ⟨⟨hn, ht⟩, ho⟩ : (s.eng.engEn = true ∧ s.eng.txFull = true) ∧
        (s.eng.rxFull = true → s.params.overrun ≠ .any) := by simpa [usesUnspecified] using hu
    simp [execXchg, hn, EngineHalf.known_misoByte_of_full hn ht, EngineHalf.known_exchange m ho]
  | rst => simp [execRst]
  | utlSvc => cases hg : utlGuard s.cnt <;> simp [execUtlSvc, hg]
  | engRxst =>
    cases hg : rxstGuard s.eng
    · simp [execEngRxst, hg]
    · have hf : s.eng.rxFull = true := ((rxstGuard_iff _).mp hg).2
      simp +contextual [execEngRxst, hg, hf, EngineHalf.known_eq_known_iff]
  | engTxld =>
    cases hg : txldGuard s.eng
    · simp [execEngTxld, hg]
    · have hr : s.eng.known.memRead .tx s.eng.txRd = s.eng.memRead .tx s.eng.txRd :=
        EngineHalf.known_memRead_of_written hu
      simp +contextual [execEngTxld, hg, hr, EngineHalf.known_eq_known_iff]

@[simp] theorem usesUnspecified_known (i : Instr) (s : State) : usesUnspecified i s.known = usesUnspecified i s := by
  cases i <;> simp [usesUnspecified]

@[simp] theorem hazards_known (i : Instr) (s : State) : hazards i s.known = hazards i s := by
  cases i with
  | cntCfg | edge => simp [hazards]
  | cntRd | irqEn | outSet | statRd | txPut | rxGet | engPreload | engEn | xchg | rst | utlSvc | engRxst
  | engTxld => rfl

/-- Settles O43: both runs are compared with the run from the blanked state, which is the same state for both. -/
theorem unspecifiedValuesStayConfined : Obligations.UnspecifiedValuesStayConfined := by
  intro i s s' hs hu
  have hu' : usesUnspecified i s' = false := by rw [← usesUnspecified_known, ← hs, usesUnspecified_known, hu]
  have heq : knownOutcome (exec i s') = knownOutcome (exec i s) := by
    rw [← knownOutcome_exec_known hu', ← hs, knownOutcome_exec_known hu]
  refine ⟨fun t ht => ?_, fun r hr => ?_⟩
  · obtain ⟨t', ht', hknown⟩ := knownOutcome_eq_next_iff.mp (heq.trans (congrArg knownOutcome ht))
    exact ⟨t', ht', hknown.symm⟩
  · exact knownOutcome_eq_fault_iff.mp (heq.trans (congrArg knownOutcome hr))

/-- Settles O44: the hazards are read off what is specified, and an operation without one uses no unspecified value, so
that the confinement just proved applies. -/
theorem hazardFreeOperationActsAlikeOnUnspecifiedValues :
    Obligations.HazardFreeOperationActsAlikeOnUnspecifiedValues := by
  intro i s s' hs hz hc
  have hz' : hazards i s' = [] := by rw [← hazards_known, ← hs, hazards_known, hz]
  exact ⟨hz', unspecifiedValuesStayConfined i s s' hs (usesUnspecified_of_hazards_nil hz hc)⟩

end Sys2Proof.Machine
end

section
/-! PROOFS. Filling the outbound buffer (20_memory R72): the whole of a run of `TX.PUT` as one update of the engine half, and
where its writes fall. -/

namespace Sys2Proof.Machine

/-- The accesses of `TX.PUT` for each byte in turn. -/
def EngineHalf.fillTx (cap : Nat) (bs : List Byte) (e : EngineHalf) : EngineHalf :=
  bs.foldl (fun e b => e.putTx cap b) e

@[simp] theorem EngineHalf.fillTx_nil (cap : Nat) (e : EngineHalf) : e.fillTx cap [] = e := rfl

theorem EngineHalf.fillTx_cons (cap : Nat) (b : Byte) (bs : List Byte) (e : EngineHalf) :
    e.fillTx cap (b :: bs) = (e.putTx cap b).fillTx cap bs := rfl

theorem EngineHalf.fillTx_concat (cap : Nat) (bs : List Byte) (b : Byte) (e : EngineHalf) :
    e.fillTx cap (bs ++ [b]) = (e.fillTx cap bs).putTx cap b := List.foldl_concat ..

theorem execTxPut_of_disabled {s : State} (h : s.eng.engEn = false) (b : Byte) :
    execTxPut b s = .next (respond .ok 0 { s with eng := s.eng.putTx s.params.cap b }) := by
  simp [execTxPut, h]

/-- A run of `TX.PUT` with the engine disabled completes and updates the engine half and the output, nothing else. -/
theorem execAll_txFill (bs : List Byte) {s : State} (h : s.eng.engEn = false) :
    ∃ o, execAll (Instr.txFill bs) s = .next { s with eng := s.eng.fillTx s.params.cap bs, output := o } := by
  induction bs generalizing s with
  | nil => exact ⟨s.output, rfl⟩
  | cons b bs ih =>
    obtain ⟨o, ho⟩ := ih (s := respond .ok 0 { s with eng := s.eng.putTx s.params.cap b }) h
    exact ⟨o, execAll_cons_next.mpr ⟨_, execTxPut_of_disabled h b, ho⟩⟩

/-- Places counted from one start, fewer than `cap` apart, are different cells. -/
theorem add_mod_ne_of_lt {cap w k n : Nat} (hk : k < n) (hn : n < cap) : (w + k) % cap ≠ (w + n) % cap :=
  fun h => hk.ne (Nat.ModEq.eq_of_lt_of_lt (Nat.ModEq.add_left_cancel' w h) (hk.trans hn) hn)

section
variable {cap : Nat} {e : EngineHalf}

theorem EngineHalf.fillTx_txWr (hw : e.txWr < cap) (bs : List Byte) :
    (e.fillTx cap bs).txWr = (e.txWr + bs.length) % cap := by
  induction bs using List.reverseRecOn with
  | nil => exact (Nat.mod_eq_of_lt hw).symm
  | append_singleton bs b ih =>
    rw [fillTx_concat, putTx_txWr, ih, advance_mod, List.length_append, List.length_singleton, Nat.add_assoc]

/-- Up to `cap` bytes fall on different cells, so that each is still there at the end. -/
theorem EngineHalf.memRead_fillTx (hw : e.txWr < cap) {bs : List Byte} (hlen : bs.length ≤ cap) {k : Nat} {b : Byte}
    (hk : bs[k]? = some b) : (e.fillTx cap bs).memRead .tx ((e.txWr + k) % cap) = b := by
  induction bs using List.reverseRecOn with
  | nil => simp at hk
  | append_singleton bs a ih =>
    have hfit : bs.length < cap := by simpa using hlen
    rw [fillTx_concat, memRead_putTx, fillTx_txWr hw]
    have hle : k < bs.length + 1 := by simpa using (List.getElem?_eq_some_iff.mp hk).1
    obtain hkept | rfl := Nat.lt_succ_iff_lt_or_eq.mp hle
    · rw [if_neg (add_mod_ne_of_lt hkept hfit)]
      exact ih hfit.le (by rwa [List.getElem?_append_left hkept] at hk)
    · rw [if_pos rfl]
      simpa using hk

end

/-- Settles O57: the index moves `CAP` places round the buffer, and no cell is written twice on the way. -/
theorem fillingWritesEveryCellOnce : Obligations.FillingWritesEveryCellOnce := by
  intro bs s hs hn hlen
  have hw := hs.engine.txWr_lt
  obtain ⟨o, ho⟩ := execAll_txFill bs hn
  refine ⟨_, ho, ?_, fun k b hk => EngineHalf.memRead_fillTx hw hlen.le hk⟩
  calc (s.eng.fillTx s.params.cap bs).txWr
      = (s.eng.txWr + s.params.cap) % s.params.cap := by rw [EngineHalf.fillTx_txWr hw, hlen]
    _ = s.eng.txWr := by rw [Nat.add_mod_right, Nat.mod_eq_of_lt hw]

end Sys2Proof.Machine
end

section
/-! PROOFS. The encoding both ways (30_encoding R101, R106): the word of a row's format with a word's fields, and the
decoder as match and mask. -/

namespace Sys2Proof

/-- The word of a format with that opcode and another word's operand fields. -/
def Format.respell (f : Format) (op : Byte) (w : OpWord) : OpWord :=
  match f with
  | .N => encodeN op
  | .I => encodeI op (immOf w)
  | .L => encodeL op (lvlOf w)
  | .C => encodeC op (osrOf w) (dirOf w) (initOf w) (topOf w)

/-- A word whose zero bits are clear is nothing but its opcode and its operand fields. -/
theorem Format.respell_opcodeOf {f : Format} {w : OpWord} (hz : f.zerosClear w = true) :
    f.respell (opcodeOf w) w = w := by
  cases f with
  | N => exact encodeN_of_fields w hz
  | I => exact encodeI_of_fields w hz
  | L => exact encodeL_of_fields w hz
  | C => exact encodeC_of_fields w hz

/-- What a row builds from a word is encoded in the row's format, with the row's opcode and the word's fields. -/
theorem encode_build {r : OpcodeRow} (hr : r ∈ opcodeTable) (w : OpWord) :
    encode (r.build w) = r.format.respell r.opcode w := by
  simp only [opcodeTable, counterRows, engineRows, eventRows, internalRows, List.cons_append, List.nil_append,
    List.mem_cons, List.not_mem_nil, or_false] at hr
  rcases hr with rfl | rfl | rfl | rfl | rfl | rfl | rfl | rfl | rfl | rfl | rfl | rfl | rfl | rfl | rfl <;> rfl

/-- The row of an operation's opcode builds the operation from its word. -/
theorem build_encode {i : Instr} {r : OpcodeRow} (hr : rowOf i.opcode = some r) : r.build (encode i) = i := by
  cases i with
  | cntCfg top init dir osr =>
    obtain ⟨htop, hinit, hosr, hdir⟩ := encodeC_fields 0x01 osr dir init top
    cases hr
    exact congr (congr (congrArg₂ Instr.cntCfg htop hinit) hdir) hosr
  | outSet lvl => cases hr; exact congrArg Instr.outSet (lvlOf_encodeL 0x04 lvl)
  | txPut b => cases hr; exact congrArg Instr.txPut (immOf_encodeI 0x10 b)
  | xchg m => cases hr; exact congrArg Instr.xchg (immOf_encodeI 0x81 m)
  | cntRd | irqEn | statRd | rxGet | engPreload | engEn | edge | rst | utlSvc | engRxst | engTxld => cases hr; rfl

/-- Every operation's word carries its opcode, with the zero bits of the opcode's row clear. -/
theorem encodeOpcode_statement (i : Instr) : Laws.EncodeOpcode.Statement i := by
  cases i with
  | cntCfg top init dir osr => exact Laws.EncodeOpcode.cntCfg top init dir osr
  | cntRd => exact Laws.EncodeOpcode.cntRd
  | irqEn => exact Laws.EncodeOpcode.irqEn
  | outSet lvl => exact Laws.EncodeOpcode.outSet lvl
  | statRd => exact Laws.EncodeOpcode.statRd
  | txPut b => exact Laws.EncodeOpcode.txPut b
  | rxGet => exact Laws.EncodeOpcode.rxGet
  | engPreload => exact Laws.EncodeOpcode.engPreload
  | engEn => exact Laws.EncodeOpcode.engEn
  | edge => exact Laws.EncodeOpcode.edge
  | xchg m => exact Laws.EncodeOpcode.xchg m
  | rst => exact Laws.EncodeOpcode.rst
  | utlSvc => exact Laws.EncodeOpcode.utlSvc
  | engRxst => exact Laws.EncodeOpcode.engRxst
  | engTxld => exact Laws.EncodeOpcode.engTxld

/-- Settles O2: the word carries the opcode of a row whose zero bits are clear in it, and that row builds the operation. -/
theorem decodeOfEncodeIsTheInstruction : Obligations.DecodeOfEncodeIsTheInstruction := by
  intro i
  obtain ⟨hop, r, hrow, -, hz⟩ := encodeOpcode_statement i
  exact (decode_ok_iff _ _).mpr ⟨r, hop ▸ hrow, hz, build_encode hrow⟩

/-- Settles O3: a row found by the word's opcode encodes what it builds as the word's own opcode and fields. -/
theorem encodeOfDecodeIsTheWord : Obligations.EncodeOfDecodeIsTheWord := by
  intro w i h
  obtain ⟨r, hrow, hz, rfl⟩ := (decode_ok_iff w i).mp h
  obtain ⟨hr, hop⟩ := rowOf_some hrow
  rw [encode_build hr, hop, Format.respell_opcodeOf hz]

/-- The row found by a word's opcode whose zero bits are clear in the word is the row of the map that selects it. -/
theorem rowOf_opcodeOf_iff (r : OpcodeRow) (w : OpWord) :
    rowOf (opcodeOf w) = some r ∧ r.format.zerosClear w = true ↔ r ∈ opcodeTable ∧ w &&& r.mask = r.pattern := by
  constructor
  · rintro ⟨hrow, hz⟩
    obtain ⟨hr, hop⟩ := rowOf_some hrow
    exact ⟨hr, (row_selects_iff r hr w).mpr ⟨hop.symm, hz⟩⟩
  · rintro ⟨hr, hsel⟩
    obtain ⟨hop, hz⟩ := (row_selects_iff r hr w).mp hsel
    exact ⟨hop ▸ rowOf_opcode r hr, hz⟩

theorem decode_ok_iff_selected (w : OpWord) (i : Instr) :
    decode w = .ok i ↔ ∃ r ∈ opcodeTable, w &&& r.mask = r.pattern ∧ r.build w = i := by
  simp only [decode_ok_iff, ← and_assoc, rowOf_opcodeOf_iff]

/-- No opcode has two rows. -/
theorem opcodes_nodup : (opcodeTable.map OpcodeRow.opcode).Nodup := by decide

/-- Two rows that select one word stand at one place, for both have the word's opcode. -/
theorem position_eq_of_selected {w : OpWord} {j k : Nat} {r r' : OpcodeRow} (hj : opcodeTable[j]? = some r)
    (hk : opcodeTable[k]? = some r') (hr : w &&& r.mask = r.pattern) (hr' : w &&& r'.mask = r'.pattern) : j = k := by
  have hop := ((row_selects_iff r (List.mem_of_getElem? hj) w).mp hr).1
  have hop' := ((row_selects_iff r' (List.mem_of_getElem? hk) w).mp hr').1
  have hlt : j < (opcodeTable.map OpcodeRow.opcode).length := by
    simpa using (List.getElem?_eq_some_iff.mp hj).1
  exact (List.getElem?_inj hlt opcodes_nodup).mp (by simp [hj, hk, ← hop, ← hop'])

/-- Settles O4: both directions go through the row that the opcode finds, and no opcode has two rows. -/
theorem decoderAgreesWithMatchAndMask : Obligations.DecoderAgreesWithMatchAndMask :=
  ⟨decode_ok_iff_selected, fun _ _ _ _ _ => position_eq_of_selected⟩

/-- Settles O1: the decoder is run on each word. -/
theorem writtenOutWordsDecode : Obligations.WrittenOutWordsDecode := by
  unfold Obligations.WrittenOutWordsDecode
  decide

end Sys2Proof
end

section
/-! PROOFS. The verdict on every word (30_encoding R107, R108), read off the rows of the opcode map. -/

namespace Sys2Proof.Machine

theorem wellFormed_iff (p : Port) (i : Instr) : i.wellFormed p = true ↔ (i.issuer = .host ↔ p = .host) := by
  cases p with
  | host => simp [wellFormed_host_iff]
  | trace => simp [wellFormed_trace_iff]

theorem verdict_of_selected {p : Port} {w : OpWord} {r : OpcodeRow} (hr : r ∈ opcodeTable)
    (hp : r.issuer = .host ↔ p = .host) (hsel : w &&& r.mask = r.pattern) : verdict ⟨p, w⟩ = .run (r.build w) :=
  verdict_run ((decode_ok_iff_selected w _).mpr ⟨r, hr, hsel, rfl⟩)
    ((wellFormed_iff p _).mpr (by rwa [build_issuer r hr w]))

/-- A word that no row of its port selects is rejected. -/
theorem verdict_of_unselected {p : Port} {w : OpWord}
    (h : ∀ r ∈ opcodeTable, (r.issuer = .host ↔ p = .host) → w &&& r.mask ≠ r.pattern) :
    verdict ⟨p, w⟩ = rejected p := by
  refine verdict_rejected fun i hi => Bool.eq_false_iff.mpr fun hw => ?_
  obtain ⟨r, hr, hsel, rfl⟩ := (decode_ok_iff_selected w i).mp hi
  exact h r hr (build_issuer r hr w ▸ (wellFormed_iff p _).mp hw) hsel

theorem step_of_inputs {s : State} {a : Arrival} {rest : List Arrival} (hq : s.inputs = a :: rest) :
    step s = deliver a { s with inputs := rest } := by
  simp only [step, takeStep, hq]

theorem refuse_illegal (s : State) : refuse .illegal s = .next { s with output := .response 0x04000000#32 } := rfl

/-- Settles O7: the rows that select the word decide the verdict, and the verdict decides the step. -/
theorem everyWordHasOneVerdict : Obligations.EveryWordHasOneVerdict := by
  intro s p w rest hq
  rw [step_of_inputs hq]
  refine ⟨fun r hr hp hsel => ?_, ?_, ?_⟩
  · simp only [deliver, verdict_of_selected hr hp hsel]
  · rintro rfl h
    have hv := verdict_of_unselected fun r hr hp => h r hr (hp.mpr rfl)
    simp only [deliver, hv, rejected, refuse_illegal]
  · rintro rfl h t
    have hv : verdict ⟨.trace, w⟩ = rejected .trace := verdict_of_unselected fun r hr hp => h r hr (by simp [hp])
    simp [deliver, hv, rejected]

end Sys2Proof.Machine
end

section
/-! PROOFS. Who answers what (30_encoding R104, 60_exceptions R271). -/

namespace Sys2Proof.Machine

/-- The answers of an operation on the boundary (30_encoding R104): a host command answers a status it may return, with data
only when it is one of the three reads and not refused; an exchange answers a byte; nothing else answers. -/
inductive Answers : Instr → Output → Prop where
  | response {i : Instr} {st : Status} {d : Half} (hi : i.issuer = .host) (hst : st ≠ .illegal)
      (hd : d = 0 ∨ st = .ok ∧ (i = .cntRd ∨ i = .statRd ∨ i = .rxGet)) : Answers i (.response (responseWord st d))
  | miso (m v : Byte) : Answers (.xchg m) (.miso v)
  | silent {i : Instr} (hh : i.issuer ≠ .host) (hm : i.issuer ≠ .master) : Answers i .silent

/-- A host command that returns no data. -/
theorem Answers.status {i : Instr} {st : Status} (hi : i.issuer = .host) (hst : st ≠ .illegal) :
    Answers i (.response (responseWord st 0)) := .response hi hst (.inl rfl)

theorem exec_next_answers {i : Instr} {s t : State} (h : exec i s = .next t) : Answers i t.output := by
  cases i with
  | cntCfg top init dir osr =>
    obtain ⟨-, rfl⟩ | ⟨-, -, -, rfl⟩ | ⟨-, -, -, rfl⟩ := execCntCfg_next h <;> exact .status rfl (by decide)
  | cntRd => obtain ⟨-, rfl⟩ | ⟨-, rfl⟩ := execCntRd_next h <;> exact .response rfl (by decide) (by simp)
  | irqEn => obtain rfl := execIrqEn_next h; exact .status rfl (by decide)
  | outSet lvl => obtain ⟨-, rfl⟩ | ⟨-, rfl⟩ := execOutSet_next h <;> exact .status rfl (by decide)
  | statRd => obtain ⟨-, rfl⟩ | ⟨-, rfl⟩ := execStatRd_next h <;> exact .response rfl (by decide) (by simp)
  | txPut b => obtain ⟨-, rfl⟩ | ⟨-, rfl⟩ := execTxPut_next h <;> exact .status rfl (by decide)
  | rxGet => obtain rfl := execRxGet_next h; exact .response rfl (by decide) (by simp)
  | engPreload => obtain ⟨-, rfl⟩ | ⟨-, rfl⟩ := execEngPreload_next h <;> exact .status rfl (by decide)
  | engEn => obtain ⟨-, rfl⟩ | ⟨-, rfl⟩ := execEngEn_next h <;> exact .status rfl (by decide)
  | edge => obtain rfl := execEdge_next h; exact .silent (by decide) (by decide)
  | xchg m => obtain ⟨-, rfl⟩ | ⟨-, rfl⟩ := execXchg_next h <;> exact .miso m _
  | rst => obtain rfl := execRst_next h; exact .silent (by decide) (by decide)
  | utlSvc => obtain ⟨-, rfl⟩ := execUtlSvc_next h; exact .silent (by decide) (by decide)
  | engRxst => obtain ⟨-, rfl⟩ := execEngRxst_next h; exact .silent (by decide) (by decide)
  | engTxld => obtain ⟨-, rfl⟩ := execEngTxld_next h; exact .silent (by decide) (by decide)

theorem Status.code_le_three {st : Status} (h : st ≠ .illegal) : st.code.toNat ≤ 3 := by
  cases st with
  | illegal => exact absurd rfl h
  | ok | cfgRange | cfgRepeat | badState => decide

/-- Settles O30: read off the kinds of answer. -/
theorem whoAnswersWhat : Obligations.WhoAnswersWhat := by
  intro i s t h
  have hans := exec_next_answers h
  generalize t.output = o at hans ⊢
  cases hans with
  | @response _ st d hi hst hd =>
    refine ⟨fun _ => ⟨_, rfl, ?_, responseWord_zero st d, ?_⟩, by simp [hi], by simp [hi]⟩
    · rw [responseWord_status]
      exact Status.code_le_three hst
    · rw [responseWord_status, responseWord_data]
      intro hc
      obtain rfl | ⟨rfl, hread⟩ := hd
      · rfl
      · exact absurd hread (by simpa using hc.resolve_left fun hne => hne rfl)
  | miso m v => simp [Instr.issuer]
  | silent hh hm => simp [hh, hm]

end Sys2Proof.Machine
end

section
/-! PROOFS. The counter, path by path (40_counter R142 to R157): `CNT.CFG`, `CNT.RD`, and what a raw edge makes of the counter
half on each path, as registers and as unbounded integers. -/

namespace Sys2Proof.Machine

/-! The configuration and the read. -/

/-- Settles O12: the state check, then the range check, with the range read off `legalCfg`. -/
theorem cntCfgArmsRefusesOrLatchesTheError : Obligations.CntCfgArmsRefusesOrLatchesTheError := by
  intro top init dir osr s
  rw [exec_cntCfg]
  refine ⟨fun hstate => ?_, fun hc he htop hinit hle hosr => ?_, fun hc he hbad => ?_⟩
  · have hrefuse : (s.cnt.configured || s.cnt.cfgErr) = true := by simpa using hstate
    exact if_pos hrefuse
  · have hlegal : legalCfg top init osr = true := (legalCfg_iff top init osr).mpr ⟨htop, hinit, hle, hosr⟩
    simp only [execCntCfg, hc, he, hlegal]
    rfl
  · have hillegal : legalCfg top init osr = false := by
      rw [Bool.eq_false_iff, ne_eq, legalCfg_iff]
      omega
    simp only [execCntCfg, hc, he, hillegal]
    rfl

/-- Settles O13: both answers are `OK`, so the response word is the data; only the count of draws can move. -/
theorem cntRdAnswersTheCounter : Obligations.CntRdAnswersTheCounter := by
  intro s
  rw [exec_cntRd]
  cases hc : s.cnt.configured
  · exact ⟨_, Config.counterHalf s.cnt.draws, if_neg (by simp [hc]), by simp [respond], nofun⟩
  · exact ⟨_, s.cnt.cntValue, if_pos hc, by simp [respond], fun _ => ⟨rfl, rfl⟩⟩

/-! The raw edge on each path (40_counter R147). -/

section
variable {c : CounterHalf}

theorem CounterHalf.pulseDue_iff (c : CounterHalf) :
    c.pulseDue = true ↔ c.configured = true ∧ c.osr.toNat ≤ c.edgeCnt.toNat + 1 := by
  simp [CounterHalf.pulseDue]

theorem CounterHalf.gated_of_not_pulseDue (hc : c.configured = true) (h : c.pulseDue = false) :
    c.edgeCnt.toNat + 1 < c.osr.toNat := by
  simpa [CounterHalf.pulseDue, hc] using h

theorem CounterHalf.underflowDue_of_not_pulseDue (h : c.pulseDue = false) : c.underflowDue = false := by
  simp [CounterHalf.underflowDue, h]

theorem CounterHalf.underflowDue_of_up (h : c.cntDir = .up) : c.underflowDue = false := by
  simp [CounterHalf.underflowDue, h]

theorem CounterHalf.underflowDue_of_value_ne_zero (h : c.cntValue ≠ 0) : c.underflowDue = false := by
  simp only [CounterHalf.underflowDue, beq_false_of_ne h, Bool.and_false]

theorem CounterHalf.underflowDue_iff_of_down (h : c.pulseDue = true) (hd : c.cntDir = .down) :
    c.underflowDue = true ↔ c.cntValue = 0 := by
  simp [CounterHalf.underflowDue, h, hd]

theorem CounterHalf.rawEdge_of_unconfigured (h : c.configured = false) : c.rawEdge = c :=
  if_neg (by simp [h])

theorem CounterHalf.rawEdge_of_gated (hc : c.configured = true) (h : c.edgeCnt.toNat + 1 < c.osr.toNat) :
    c.rawEdge = { c with edgeCnt := c.edgeCnt + 1 } :=
  (if_pos hc).trans (if_pos h)

theorem CounterHalf.rawEdge_of_pulseDue (h : c.pulseDue = true) :
    c.rawEdge = CounterHalf.logicalPulse { c with edgeCnt := 0 } := by
  obtain ⟨hc, he⟩ := c.pulseDue_iff.mp h
  exact (if_pos hc).trans (if_neg he.not_gt)

theorem CounterHalf.rawEdge_of_down_pos (h : c.pulseDue = true) (hd : c.cntDir = .down) (hv : c.cntValue ≠ 0) :
    c.rawEdge = { c with edgeCnt := 0, cntValue := c.cntValue - 1 } := by
  rw [CounterHalf.rawEdge_of_pulseDue h]
  simp only [CounterHalf.logicalPulse, hd, if_neg hv]

theorem CounterHalf.rawEdge_of_up_top (h : c.pulseDue = true) (hd : c.cntDir = .up) (hv : c.cntValue = c.cntTop) :
    c.rawEdge = { c with edgeCnt := 0, cntValue := 0 } := by
  rw [CounterHalf.rawEdge_of_pulseDue h]
  simp [CounterHalf.logicalPulse, hd, hv]

theorem CounterHalf.rawEdge_of_up_below (h : c.pulseDue = true) (hd : c.cntDir = .up) (hv : c.cntValue ≠ c.cntTop) :
    c.rawEdge = { c with edgeCnt := 0, cntValue := c.cntValue + 1 } := by
  rw [CounterHalf.rawEdge_of_pulseDue h]
  simp [CounterHalf.logicalPulse, hd, hv]

end

/-- Settles O21: one equation of the raw edge per path. -/
theorem edgeGatesCountsAndReloads : Obligations.EdgeGatesCountsAndReloads := by
  intro s
  refine ⟨s.cnt.rawEdge, rfl, CounterHalf.rawEdge_of_unconfigured, CounterHalf.rawEdge_of_gated, fun hc he => ?_⟩
  have hp : s.cnt.pulseDue = true := s.cnt.pulseDue_iff.mpr ⟨hc, he⟩
  exact ⟨fun hd hv => CounterHalf.rawEdge_of_underflowDue (s.cnt.underflowDue_iff.mpr ⟨hc, he, hd, hv⟩),
    CounterHalf.rawEdge_of_down_pos hp, CounterHalf.rawEdge_of_up_top hp, CounterHalf.rawEdge_of_up_below hp⟩

/-- Settles O38: the edge that underflows, where setting the flag changes nothing. -/
theorem secondUnderflowCoalesces : Obligations.SecondUnderflowCoalesces := by
  intro s hdue hpending
  rw [exec_edge, execEdge, CounterHalf.rawEdge_of_underflowDue hdue, ← hpending]
  rfl

/-- Settles O37: no case of `CounterMove` but the raw edge raises the flag, and that one raises it where an underflow is due. -/
theorem underflowRisesOnlyBelowZero : Obligations.UnderflowRisesOnlyBelowZero := by
  intro i s t h hclear
  by_cases hi : i = .edge
  · subst hi
    obtain rfl := execEdge_next h
    simp [hclear, CounterHalf.underflowDue_iff]
  · have hm := exec_next_counterMove h
    generalize s.cnt = c, t.cnt = c' at hm hclear ⊢
    cases hm with
    | idle | arm | latchError | enable | setOut | serve | reset => simp [hi, hclear]
    | count => exact absurd rfl hi

/-! The raw edge as unbounded integers (40_counter R157). -/

section
variable {c : CounterHalf}

theorem CounterHalf.rawEdge_edgeCnt_of_gated (hc : c.configured = true) (h : c.edgeCnt.toNat + 1 < c.osr.toNat) :
    c.rawEdge.edgeCnt.toNat = c.edgeCnt.toNat + 1 := by
  rw [CounterHalf.rawEdge_of_gated hc h]
  bv_omega

theorem CounterHalf.rawEdge_cntValue_of_gated (hc : c.configured = true) (h : c.edgeCnt.toNat + 1 < c.osr.toNat) :
    c.rawEdge.cntValue = c.cntValue := by
  rw [CounterHalf.rawEdge_of_gated hc h]

theorem CounterHalf.rawEdge_edgeCnt_of_pulseDue (h : c.pulseDue = true) : c.rawEdge.edgeCnt = 0 := by
  rw [CounterHalf.rawEdge_of_pulseDue h]
  obtain ⟨-, -, e⟩ | ⟨-, -, e⟩ | ⟨-, -, e⟩ | ⟨-, -, e⟩ :=
    CounterHalf.logicalPulse_cases { c with edgeCnt := 0 } <;> rw [e]

/-- A pulse counting down subtracts 1, and an underflow puts `cnt_top + 1` back. -/
theorem CounterHalf.rawEdge_cntValue_down (h : c.pulseDue = true) (hd : c.cntDir = .down) :
    c.rawEdge.cntValue.toNat + 1 = c.cntValue.toNat + if c.underflowDue then c.cntTop.toNat + 1 else 0 := by
  by_cases hv : c.cntValue = 0
  · have hdue : c.underflowDue = true := (CounterHalf.underflowDue_iff_of_down h hd).mpr hv
    simp [CounterHalf.rawEdge_of_underflowDue hdue, hdue, hv]
  · rw [CounterHalf.rawEdge_of_down_pos h hd hv, CounterHalf.underflowDue_of_value_ne_zero hv, if_neg Bool.false_ne_true]
    bv_omega

/-- A pulse counting up adds 1 modulo `cnt_top + 1`. -/
theorem CounterInv.rawEdge_cntValue_up (hinv : CounterInv c) (h : c.pulseDue = true) (hd : c.cntDir = .up) :
    c.rawEdge.cntValue.toNat = (c.cntValue.toNat + 1) % (c.cntTop.toNat + 1) := by
  have hle := hinv.value_le_top (c.pulseDue_iff.mp h).1
  by_cases hv : c.cntValue = c.cntTop
  · rw [CounterHalf.rawEdge_of_up_top h hd hv, hv, Nat.mod_self]
    rfl
  · rw [CounterHalf.rawEdge_of_up_below h hd hv, Nat.mod_eq_of_lt (by bv_omega)]
    bv_omega

end

/-- Settles O49: the rules of the raw edge as unbounded integers, where nothing wraps and no underflow is due. -/
theorem counterArithmeticNeverWraps : Obligations.CounterArithmeticNeverWraps := by
  intro s t hs h hc
  obtain rfl := execEdge_next h
  refine ⟨CounterHalf.rawEdge_edgeCnt_of_gated hc, fun hp hd hv => ?_, fun hp hd hv => ?_⟩
  · simpa [CounterHalf.underflowDue_of_value_ne_zero hv] using CounterHalf.rawEdge_cntValue_down hp hd
  · have hle := hs.counter.value_le_top hc
    exact (hs.counter.rawEdge_cntValue_up hp hd).trans (Nat.mod_eq_of_lt (by bv_omega))

end Sys2Proof.Machine
end

section
/-! PROOFS. The closed forms of counting (40_counter R158): where the counter stands after `n` raw edges is an invariant in
`n`, from which each closed form is read off. -/

namespace Sys2Proof.Machine

/-! One more raw edge, and one more logical pulse or none. -/

theorem succ_div_mod_of_lt {n r : Nat} (h : n % r + 1 < r) : (n + 1) / r = n / r ∧ (n + 1) % r = n % r + 1 :=
  (Nat.div_mod_unique (Nat.zero_lt_of_lt h)).mpr ⟨by have := Nat.mod_add_div n r; omega, h⟩

theorem succ_div_mod_of_eq {n r : Nat} (h : n % r + 1 = r) : (n + 1) / r = n / r + 1 ∧ (n + 1) % r = 0 := by
  have hr : 0 < r := h ▸ Nat.succ_pos _
  refine (Nat.div_mod_unique hr).mpr ⟨?_, hr⟩
  have hn := Nat.mod_add_div n r
  rw [Nat.mul_add_one]
  omega

/-- The counter half `c` is what `n` raw edges with `u` underflows make of the armed half `c₀`. Counting down, every pulse
took 1 from the value and every underflow put `cnt_top + 1` back. -/
structure CountedFrom (c₀ : CounterHalf) (n u : Nat) (c : CounterHalf) : Prop where
  inv : CounterInv c
  armed : c.configured = true
  top_eq : c.cntTop = c₀.cntTop
  dir_eq : c.cntDir = c₀.cntDir
  ratio_eq : c.osr = c₀.osr
  edges : c.edgeCnt.toNat = n % c₀.osr.toNat
  pending : c.ufPending = (c₀.ufPending || decide (0 < u))
  down : c₀.cntDir = .down →
    c.cntValue.toNat + n / c₀.osr.toNat = c₀.cntValue.toNat + u * (c₀.cntTop.toNat + 1)
  up : c₀.cntDir = .up →
    c.cntValue.toNat = (c₀.cntValue.toNat + n / c₀.osr.toNat) % (c₀.cntTop.toNat + 1) ∧ u = 0

section
variable {c₀ c : CounterHalf} {n u : Nat}

theorem CountedFrom.zero (hinv : CounterInv c₀) (hc : c₀.configured = true) (he : c₀.edgeCnt = 0) :
    CountedFrom c₀ 0 0 c₀ where
  inv := hinv
  armed := hc
  top_eq := rfl
  dir_eq := rfl
  ratio_eq := rfl
  edges := by simp [he]
  pending := by simp
  down _ := by simp
  up _ := by simpa using (Nat.mod_eq_of_lt (Nat.lt_succ_of_le (hinv.value_le_top hc))).symm

/-- The next edge is gated, or it is the `osr`-th and one more pulse. -/
theorem CountedFrom.gate_cases (h : CountedFrom c₀ n u c) :
    (c.pulseDue = false ∧ c.edgeCnt.toNat + 1 < c.osr.toNat ∧
      (n + 1) / c₀.osr.toNat = n / c₀.osr.toNat ∧ (n + 1) % c₀.osr.toNat = n % c₀.osr.toNat + 1) ∨
    (c.pulseDue = true ∧
      (n + 1) / c₀.osr.toNat = n / c₀.osr.toNat + 1 ∧ (n + 1) % c₀.osr.toNat = 0) := by
  rw [← h.edges, ← h.ratio_eq]
  have hedges : c.edgeCnt.toNat = n % c.osr.toNat := h.ratio_eq ▸ h.edges
  cases hp : c.pulseDue
  · have hlt := CounterHalf.gated_of_not_pulseDue h.armed hp
    exact .inl ⟨rfl, hlt, hedges ▸ succ_div_mod_of_lt (hedges ▸ hlt)⟩
  · have hfull : c.edgeCnt.toNat + 1 = c.osr.toNat :=
      le_antisymm (h.inv.edge_lt_ratio h.armed) (c.pulseDue_iff.mp hp).2
    exact .inr ⟨rfl, succ_div_mod_of_eq (hedges ▸ hfull)⟩

theorem CountedFrom.succ_edges (h : CountedFrom c₀ n u c) :
    c.rawEdge.edgeCnt.toNat = (n + 1) % c₀.osr.toNat := by
  obtain ⟨-, hlt, -, hmod⟩ | ⟨hp, -, hmod⟩ := h.gate_cases
  · rw [CounterHalf.rawEdge_edgeCnt_of_gated h.armed hlt, h.edges, hmod]
  · rw [CounterHalf.rawEdge_edgeCnt_of_pulseDue hp, hmod]
    rfl

theorem CountedFrom.succ_down (h : CountedFrom c₀ n u c) (hd : c₀.cntDir = .down) :
    c.rawEdge.cntValue.toNat + (n + 1) / c₀.osr.toNat =
      c₀.cntValue.toNat + (u + if c.underflowDue then 1 else 0) * (c₀.cntTop.toNat + 1) := by
  have hsum := h.down hd
  obtain ⟨hp, hlt, hdiv, -⟩ | ⟨hp, hdiv, -⟩ := h.gate_cases
  · simpa [CounterHalf.rawEdge_cntValue_of_gated h.armed hlt, CounterHalf.underflowDue_of_not_pulseDue hp, hdiv]
  · have hvalue := CounterHalf.rawEdge_cntValue_down hp (h.dir_eq.trans hd)
    rw [h.top_eq] at hvalue
    rw [hdiv, Nat.add_mul, ite_mul, Nat.one_mul, Nat.zero_mul]
    omega

theorem CountedFrom.succ_up (h : CountedFrom c₀ n u c) (hd : c₀.cntDir = .up) :
    c.rawEdge.cntValue.toNat = (c₀.cntValue.toNat + (n + 1) / c₀.osr.toNat) % (c₀.cntTop.toNat + 1) := by
  have hvalue := (h.up hd).1
  obtain ⟨-, hlt, hdiv, -⟩ | ⟨hp, hdiv, -⟩ := h.gate_cases
  · rw [CounterHalf.rawEdge_cntValue_of_gated h.armed hlt, hdiv, hvalue]
  · rw [h.inv.rawEdge_cntValue_up hp (h.dir_eq.trans hd), h.top_eq, hvalue, hdiv, Nat.mod_add_mod, Nat.add_assoc]

theorem CountedFrom.succ (h : CountedFrom c₀ n u c) :
    CountedFrom c₀ (n + 1) (u + if c.underflowDue then 1 else 0) c.rawEdge where
  inv := h.inv.rawEdge
  armed := by simpa using h.armed
  top_eq := by simpa using h.top_eq
  dir_eq := by simpa using h.dir_eq
  ratio_eq := by simpa using h.ratio_eq
  edges := h.succ_edges
  pending := by cases hu : c.underflowDue <;> simp [h.pending, hu]
  down := h.succ_down
  up hd := ⟨h.succ_up hd, by simp [(h.up hd).2, CounterHalf.underflowDue_of_up (h.dir_eq.trans hd)]⟩

/-! The closed forms, read off the invariant. -/

section
variable (h : CountedFrom c₀ n u c) (hd : c₀.cntDir = .down)
include h

theorem CountedFrom.value_le_top : c.cntValue.toNat ≤ c₀.cntTop.toNat :=
  h.top_eq ▸ h.inv.value_le_top h.armed

include hd

theorem CountedFrom.down_value :
    (c.cntValue.toNat : Int) =
      ((c₀.cntValue.toNat : Int) - (n / c₀.osr.toNat : Nat)) % (c₀.cntTop.toNat + 1 : Int) := by
  have hle := h.value_le_top
  have hsum : ((c.cntValue.toNat + n / c₀.osr.toNat : Nat) : Int) =
      (c₀.cntValue.toNat + u * (c₀.cntTop.toNat + 1) : Nat) := congrArg _ (h.down hd)
  have hdiff : (c₀.cntValue.toNat : Int) - (n / c₀.osr.toNat : Nat) =
      c.cntValue.toNat + -(u : Int) * (c₀.cntTop.toNat + 1) := by
    push_cast at hsum ⊢
    linarith
  rw [hdiff, Int.add_mul_emod_self_right, Int.emod_eq_of_lt (by omega) (by omega)]

theorem CountedFrom.down_underflows :
    u = (n / c₀.osr.toNat + c₀.cntTop.toNat - c₀.cntValue.toNat) / (c₀.cntTop.toNat + 1) := by
  have hle := h.value_le_top
  have hsum := h.down hd
  have hsplit : n / c₀.osr.toNat + c₀.cntTop.toNat - c₀.cntValue.toNat =
      c₀.cntTop.toNat - c.cntValue.toNat + u * (c₀.cntTop.toNat + 1) := by omega
  rw [hsplit, Nat.add_mul_div_right _ _ (Nat.succ_pos _), Nat.div_eq_of_lt (by omega), Nat.zero_add]

/-- Of the edges that are pulses, the next one finds the value 0 exactly when it ends a full count. -/
theorem CountedFrom.underflowDue_iff :
    c.underflowDue = true ↔
      ∃ k, n + 1 = c₀.osr.toNat * (c₀.cntValue.toNat + 1 + k * (c₀.cntTop.toNat + 1)) := by
  have hsum := h.down hd
  have hratio : 0 < c₀.osr.toNat := h.ratio_eq ▸ h.inv.ratio_pos h.armed
  obtain ⟨hp, -, -, hmod⟩ | ⟨hp, hdiv, hmod⟩ := h.gate_cases
  · rw [CounterHalf.underflowDue_of_not_pulseDue hp]
    refine ⟨nofun, fun ⟨k, hk⟩ => ?_⟩
    rw [hk, Nat.mul_mod_right] at hmod
    omega
  · have hn : n + 1 = c₀.osr.toNat * (n / c₀.osr.toNat + 1) := by
      rw [← hdiv, Nat.mul_div_cancel' (Nat.dvd_of_mod_eq_zero hmod)]
    rw [CounterHalf.underflowDue_iff_of_down hp (h.dir_eq.trans hd)]
    constructor
    · intro hzero
      refine ⟨u, hn.trans (congrArg _ ?_)⟩
      have hvalue : c.cntValue.toNat = 0 := congrArg BitVec.toNat hzero
      omega
    · rintro ⟨k, hk⟩
      have hpulses := Nat.eq_of_mul_eq_mul_left hratio (hn.symm.trans hk)
      have hreload : c.cntValue.toNat + k * (c₀.cntTop.toNat + 1) = u * (c₀.cntTop.toNat + 1) := by omega
      have hzero := congrArg (· % (c₀.cntTop.toNat + 1)) hreload
      exact BitVec.eq_of_toNat_eq
        (by simpa [Nat.mod_eq_of_lt (Nat.lt_succ_of_le h.value_le_top)] using hzero)

end

end

/-- What `n` raw edges make of an armed counter at the start of a count (40_counter R158), by induction on `n`. -/
theorem execAll_edges_countedFrom {s : State} (hinv : CounterInv s.cnt) (hc : s.cnt.configured = true)
    (he : s.cnt.edgeCnt = 0) (n : Nat) :
    ∃ t, execAll (Instr.edges n) s = .next t ∧ CountedFrom s.cnt n (underflowCount (Instr.edges n) s) t.cnt := by
  induction n with
  | zero => exact ⟨s, rfl, .zero hinv hc he⟩
  | succ n ih =>
    obtain ⟨t, ht, hcount⟩ := ih
    refine ⟨silent { t with cnt := t.cnt.rawEdge }, ?_, ?_⟩
    · rw [edges_succ]
      exact execAll_append_next.mpr ⟨t, ht, rfl⟩
    · rw [edges_succ, underflowCount_append_next ht, underflowCount_edge]
      exact hcount.succ

/-- Settles O51: each closed form is read off where the counter stands after `n` raw edges. -/
theorem countingHasItsClosedForms : Obligations.CountingHasItsClosedForms := by
  intro s n hs hc he
  obtain ⟨t, ht, h⟩ := execAll_edges_countedFrom hs.counter hc he n
  refine ⟨t, ht, h.edges, fun hd => ?_, fun hd => ?_⟩
  · exact ⟨h.down_value hd, h.down_underflows hd, h.underflowDue_iff hd⟩
  · obtain ⟨hvalue, hnone⟩ := h.up hd
    exact ⟨hvalue, hnone, by simpa [hnone] using h.pending⟩

end Sys2Proof.Machine
end

section
/-! PROOFS. The underflow toggle latch (41_toggle_latch): its three operations path by path, the ledger of underflow requests
(R187) and the parity of the output line (R189). -/

namespace Sys2Proof.Machine

variable {i : Instr} {is : List Instr} {s t : State}

/-! The three operations. -/

/-- Settles O14: `IRQ.EN` has one path, and setting the enable again leaves the state as it is. -/
theorem irqEnSetsTheEnable : Obligations.IrqEnSetsTheEnable := by
  intro s
  exact ⟨respond .ok 0 { s with cnt := { s.cnt with ufIen := true } }, rfl, by simp [respond], rfl⟩

/-- Settles O15: both paths of the state check. -/
theorem outSetOnlyBeforeArming : Obligations.OutSetOnlyBeforeArming := by
  intro lvl s
  rw [exec_outSet]
  refine ⟨fun hc => if_pos hc, fun hc => ?_⟩
  simp [execOutSet, hc, respond]

theorem execUtlSvc_of_request (hp : s.cnt.ufPending = true) (hen : s.cnt.ufIen = true) :
    execUtlSvc s = .next (silent { s with cnt := s.cnt.takeUnderflowService }) :=
  if_pos ((utlGuard_iff s.cnt).mpr ⟨hp, hen⟩)

/-! The ledger of underflow requests: an underflow makes a request, a service takes one, and a request is also gone when `RST`
clears it or another underflow falls on it. -/

/-- Everything an operation can do to `uf_pending`. -/
theorem exec_next_ufPending_cases (h : exec i s = .next t) :
    (i = .edge ∧ t.cnt.ufPending = (s.cnt.ufPending || s.cnt.underflowDue)) ∨
    (i = .utlSvc ∧ s.cnt.ufPending = true ∧ t.cnt.ufPending = false) ∨
    (i = .rst ∧ t.cnt.ufPending = false) ∨
    (i ≠ .edge ∧ i ≠ .utlSvc ∧ i ≠ .rst ∧ t.cnt.ufPending = s.cnt.ufPending) := by
  by_cases he : i = .edge
  · subst he
    obtain rfl := execEdge_next h
    exact .inl ⟨rfl, s.cnt.rawEdge_ufPending⟩
  by_cases hu : i = .utlSvc
  · subst hu
    obtain ⟨⟨hp, -⟩, rfl⟩ := execUtlSvc_next h
    exact .inr (.inl ⟨rfl, hp, rfl⟩)
  by_cases hr : i = .rst
  · subst hr
    obtain rfl := execRst_next h
    exact .inr (.inr (.inl ⟨rfl, rfl⟩))
  obtain ⟨-, -, hwriter, -⟩ := counterHalfWriters i s t h hr
  refine .inr (.inr (.inr ⟨he, hu, hr, by_contra fun hne => ?_⟩))
  exact (hwriter hne).elim (fun hw => he hw.1) (fun hw => hu hw.1)

/-- The step loses a pending request unserved: `RST` clears it, or another underflow coalesces with it (40_counter R154). -/
def Taken.losesRequest (k : Taken) : Bool := k.pre.cnt.ufPending && (k.op == .rst || k.underflows)

/-- The number of requests lost along a trace. -/
def lostRequests (is : List Instr) (s : State) : Nat := (trail is s).countP Taken.losesRequest

theorem serviceCount_cons (i : Instr) (is : List Instr) :
    serviceCount (i :: is) = serviceCount is + if i = .utlSvc then 1 else 0 := by
  simp [serviceCount, List.count_cons]

theorem underflowCount_cons_next (h : exec i s = .next t) (is : List Instr) :
    underflowCount (i :: is) s = underflowCount is t + if Taken.underflows ⟨i, s, t⟩ then 1 else 0 := by
  rw [underflowCount, trail_cons_next h, List.countP_cons]
  rfl

theorem lostRequests_cons_next (h : exec i s = .next t) (is : List Instr) :
    lostRequests (i :: is) s = lostRequests is t + if Taken.losesRequest ⟨i, s, t⟩ then 1 else 0 := by
  rw [lostRequests, trail_cons_next h, List.countP_cons]
  rfl

/-- One step keeps the ledger. -/
theorem exec_next_requests_balance (h : exec i s = .next t) :
    (if i = .utlSvc then 1 else 0) + (if Taken.losesRequest ⟨i, s, t⟩ then 1 else 0) + t.cnt.ufPending.toNat =
      s.cnt.ufPending.toNat + if Taken.underflows ⟨i, s, t⟩ then 1 else 0 := by
  obtain ⟨rfl, ht⟩ | ⟨rfl, hs, ht⟩ | ⟨rfl, ht⟩ | ⟨he, hu, hr, ht⟩ := exec_next_ufPending_cases h
  · cases hp : s.cnt.ufPending <;> cases hd : s.cnt.underflowDue <;>
      simp [Taken.losesRequest, Taken.underflows, ht, hp, hd]
  · simp [Taken.losesRequest, Taken.underflows, hs, ht]
  · cases hp : s.cnt.ufPending <;> simp [Taken.losesRequest, Taken.underflows, ht, hp]
  · simp [Taken.losesRequest, Taken.underflows, he, hu, hr, ht]

/-- Along every trace the requests served, lost and still pending are the one pending at the start and the underflows. -/
theorem execAll_requests_balance (h : execAll is s = .next t) :
    serviceCount is + lostRequests is s + t.cnt.ufPending.toNat =
      s.cnt.ufPending.toNat + underflowCount is s := by
  induction is generalizing s with
  | nil =>
    cases h
    exact Nat.add_comm ..
  | cons i is ih =>
    obtain ⟨u, hu, hrest⟩ := execAll_cons_next.mp h
    have hhead := exec_next_requests_balance hu
    have htail := ih hrest
    rw [serviceCount_cons, underflowCount_cons_next hu, lostRequests_cons_next hu]
    omega

theorem op_mem_of_mem_trail {k : Taken} (h : k ∈ trail is s) : k.op ∈ is := by
  induction is generalizing s with
  | nil => simp at h
  | cons i is ih =>
    unfold trail at h
    split at h
    next u _ =>
      obtain rfl | h := List.mem_cons.mp h
      · exact List.mem_cons_self
      · exact List.mem_cons_of_mem i (ih h)
    next => simp at h
    next => simp at h

theorem lostRequests_eq_zero (hrst : .rst ∉ is) (hfree : coalescingFree is s = true) : lostRequests is s = 0 := by
  refine List.countP_eq_zero.mpr fun k hk => ?_
  have hop : k.op ≠ .rst := fun hr => hrst (hr ▸ op_mem_of_mem_trail hk)
  have hcoal := List.all_eq_true.mp hfree k hk
  cases hp : k.pre.cnt.ufPending
  · simp [Taken.losesRequest, hp]
  · simpa [Taken.losesRequest, hp, hop] using hcoal

/-- Settles O53: the ledger from an empty start, where nothing is lost. -/
theorem everyUnderflowHasItsOwnReaction : Obligations.EveryUnderflowHasItsOwnReaction := by
  intro is s t h hrst hclear hfree
  have hledger := execAll_requests_balance h
  rw [lostRequests_eq_zero hrst hfree, hclear] at hledger
  simpa [Bool.toNat, Bool.cond_eq_ite] using hledger

/-- Settles O26: the two paths of the operation; and by the ledger two services need an underflow, for at most one request can
be pending at the start. -/
theorem utlSvcAcknowledgesAndToggles : Obligations.UtlSvcAcknowledgesAndToggles := by
  intro s
  refine ⟨execUtlSvc_of_request, fun hno t h => ?_, fun is hnone t h => ?_⟩
  · obtain ⟨⟨hp, hen⟩, -⟩ := execUtlSvc_next h
    simp [hp, hen] at hno
  · obtain ⟨u, hu, hlast⟩ := execAll_append_next.mp h
    have hledger := execAll_requests_balance hu
    obtain ⟨v, hv, -⟩ := execAll_cons_next.mp hlast
    obtain ⟨⟨hp, -⟩, -⟩ := execUtlSvc_next hv
    have hstart := s.cnt.ufPending.toNat_le
    rw [serviceCount_cons, if_pos rfl, hnone, hp, Bool.toNat_true] at hledger
    omega

/-! The output line of an armed counter. -/

/-- In state ARMED an operation other than `RST` stays there, and complements the output line exactly if it is `UTL.SVC`. -/
theorem exec_next_outLevel_of_armed (h : exec i s = .next t) (hi : i ≠ .rst) (hc : s.cnt.configured = true) :
    t.cnt.configured = true ∧ t.cnt.outLevel = xor s.cnt.outLevel (i == .utlSvc) := by
  by_cases hu : i = .utlSvc
  · subst hu
    obtain ⟨-, rfl⟩ := execUtlSvc_next h
    exact ⟨hc, by simp⟩
  · rw [beq_false_of_ne hu, Bool.xor_false]
    have hm := exec_next_counterMove h
    generalize s.cnt = c, t.cnt = c' at hm hc ⊢
    cases hm with
    | idle | latchError | enable => exact ⟨hc, rfl⟩
    | arm => exact ⟨rfl, rfl⟩
    | count => simpa using hc
    | setOut lvl hn => simp [hc] at hn
    | serve => exact absurd rfl hu
    | reset => exact absurd rfl hi

/-- One more operation changes the parity of the services exactly if it is one. -/
theorem serviceCount_cons_parity (i : Instr) (is : List Instr) :
    (serviceCount (i :: is) % 2 == 1) = xor (i == .utlSvc) (serviceCount is % 2 == 1) := by
  rw [serviceCount_cons]
  by_cases hi : i = .utlSvc
  · obtain hn | hn := Nat.mod_two_eq_zero_or_one (serviceCount is) <;> simp [hi, Nat.add_mod, hn]
  · simp [hi, beq_false_of_ne hi]

/-- Settles O40: the toggle of each operation, carried along the trace. -/
theorem outputLineIsTheParityOfServices : Obligations.OutputLineIsTheParityOfServices := by
  intro is
  induction is with
  | nil =>
    intro s t h hc hrst
    cases h
    simp [serviceCount]
  | cons i is ih =>
    intro s t h hc hrst
    obtain ⟨u, hu, hrest⟩ := execAll_cons_next.mp h
    have hi : i ≠ .rst := fun hr => hrst (hr ▸ List.mem_cons_self)
    obtain ⟨harmed, hlevel⟩ := exec_next_outLevel_of_armed hu hi hc
    rw [ih u t hrest harmed (List.not_mem_of_not_mem_cons hrst), hlevel, serviceCount_cons_parity, Bool.xor_assoc]

end Sys2Proof.Machine
end

section
/-! PROOFS. The duplex engine, path by path (42_duplex_engine R202 to R219): what each operation answers on each of its paths. -/

namespace Sys2Proof.Machine

section
variable {s : State}

theorem execTxPut_of_enabled {b : Byte} (h : s.eng.engEn = true) : execTxPut b s = .next (respond .badState 0 s) :=
  if_pos h

theorem execEngPreload_of_enabled (h : s.eng.engEn = true) : execEngPreload s = .next (respond .badState 0 s) :=
  if_pos h

theorem execEngPreload_of_disabled (h : s.eng.engEn = false) :
    execEngPreload s = .next (respond .ok 0 { s with eng := s.eng.preloadTx }) :=
  if_neg (by simp [h])

theorem execEngEn_of_enabled (h : s.eng.engEn = true) : execEngEn s = .next (respond .badState 0 s) :=
  if_pos h

theorem execEngEn_of_disabled (h : s.eng.engEn = false) :
    execEngEn s = .next (respond .ok 0 { s with eng := { s.eng with engEn := true } }) :=
  if_neg (by simp [h])

theorem execXchg_of_enabled {m : Byte} (h : s.eng.engEn = true) :
    execXchg m s = .next (emitMiso s.eng.misoByte { s with eng := s.eng.exchange s.params.overrun m }) :=
  if_pos h

theorem execXchg_of_disabled {m : Byte} (h : s.eng.engEn = false) :
    execXchg m s = .next (emitMiso s.eng.misoByte { s with eng := s.eng.exchangeIgnored }) :=
  if_neg (by simp [h])

theorem execEngRxst_of_guard (hp : s.eng.engPhase = .waitRx) (hf : s.eng.rxFull = true) :
    execEngRxst s = .next (silent { s with
      eng := { s.eng.storeRx s.params.cap with rxFull := false, engPhase := .waitTx } }) :=
  if_pos ((rxstGuard_iff s.eng).mpr ⟨hp, hf⟩)

theorem execEngTxld_of_guard (hp : s.eng.engPhase = .waitTx) (hf : s.eng.txFull = false) :
    execEngTxld s = .next (silent { s with eng := { s.eng.loadTx s.params.cap with engPhase := .waitRx } }) :=
  if_pos ((txldGuard_iff s.eng).mpr ⟨hp, hf⟩)

/-- A slot that is full goes out (42_duplex_engine R212). -/
theorem EngineHalf.misoByte_of_full {e : EngineHalf} (hn : e.engEn = true) (ht : e.txFull = true) :
    e.misoByte = e.txSlot :=
  if_pos (by simp [hn, ht])

end

/-- Settles O17: both paths of the state check; the accepted byte falls on cell `tx_wr` alone. -/
theorem txPutStoresAtTheWriteIndex : Obligations.TxPutStoresAtTheWriteIndex := by
  intro b s
  refine ⟨execTxPut_of_enabled, fun hn => ⟨_, execTxPut_of_disabled hn b, rfl, ?_, fun a ha => ?_, fun a => rfl⟩⟩
  · exact (s.eng.memRead_putTx s.params.cap b s.eng.txWr).trans (if_pos rfl)
  · exact (s.eng.memRead_putTx s.params.cap b a).trans (if_neg ha)

/-- Settles O18: the one path of `RX.GET`; an answer `OK` is the byte, zero-extended. -/
theorem rxGetReadsAtTheReadIndex : Obligations.RxGetReadsAtTheReadIndex := by
  intro s
  simp [execRxGet, respond, EngineHalf.passRx, advance]

/-- Settles O19: both paths of the state check; the fixed index of the load is 0. -/
theorem engPreloadLoadsCellZero : Obligations.EngPreloadLoadsCellZero := by
  intro s
  exact ⟨execEngPreload_of_enabled, execEngPreload_of_disabled⟩

/-- Settles O20: both paths of the state check, which does not look at the slot. -/
theorem engEnEnablesOnce : Obligations.EngEnEnablesOnce := by
  intro s
  exact ⟨execEngEn_of_enabled, execEngEn_of_disabled⟩

/-- Settles O22: the exchange that is ignored, and the exchange of an enabled engine with each of its two slots. -/
theorem xchgExchangesTheSlots : Obligations.XchgExchangesTheSlots := by
  intro m s
  cases hn : s.eng.engEn
  · exact ⟨_, _, execXchg_of_disabled hn, rfl, fun _ => rfl, nofun⟩
  · refine ⟨_, _, execXchg_of_enabled hn, rfl, nofun, fun _ => ⟨?_, EngineHalf.misoByte_of_full hn, ?_, ?_, ?_⟩⟩
    · rfl
    · intro hr
      simp [hr]
    · intro hr hp
      simp [hr, hp, EngineHalf.overrunByte]
    · intro hr hp
      simp [hr, hp, EngineHalf.overrunByte]

/-- Settles O27: under the guard the received byte falls on cell `rx_wr` alone, and no next state comes without the guard. -/
theorem engRxstStoresTheReceivedByte : Obligations.EngRxstStoresTheReceivedByte := by
  intro s
  refine ⟨fun hp hf => ⟨_, execEngRxst_of_guard hp hf, rfl, ?_, fun a ha => ?_, fun a => rfl⟩, fun hno t h => ?_⟩
  · exact (s.eng.memRead_storeRx s.params.cap s.eng.rxWr).trans (if_pos rfl)
  · exact (s.eng.memRead_storeRx s.params.cap a).trans (if_neg ha)
  · obtain ⟨⟨hp, hf⟩, -⟩ := execEngRxst_next h
    simp [hp, hf] at hno

/-! The four indices with `CAP` = 1 (42_duplex_engine R225). -/

/-- A trace keeps the invariant and the parameters. -/
theorem execAll_keeps_inv {is : List Instr} {s t : State} (h : execAll is s = .next t) (hs : Inv s) :
    Inv t ∧ t.params = s.params := by
  refine execAll_keeps (P := fun u => Inv u ∧ u.params = s.params) ?_ h ⟨hs, rfl⟩
  rintro i - u v huv ⟨hu, hp⟩
  exact ⟨everyInstructionKeepsTheInvariant i u v hu huv, (exec_next_keeps_surroundings huv).1.trans hp⟩

/-- Settles O50: the trace keeps the bounds of R54 (a), and below 1 there is only 0. -/
theorem capacityOneIndicesAreZero : Obligations.CapacityOneIndicesAreZero := by
  intro is s t hs hcap h
  obtain ⟨ht, hp⟩ := execAll_keeps_inv h hs
  have hone : t.params.cap = 1 := hp ▸ hcap
  have hinv := hone ▸ ht.engine
  exact ⟨Nat.lt_one_iff.mp hinv.rxWr_lt, Nat.lt_one_iff.mp hinv.rxRd_lt, Nat.lt_one_iff.mp hinv.txWr_lt,
    Nat.lt_one_iff.mp hinv.txRd_lt⟩

/-! Stores and loads in turn (42_duplex_engine R219). -/

section
variable {i : Instr} {is : List Instr} {s t : State}

/-- A store moves the sequencer from WAIT_RX to WAIT_TX, a load moves it back, and no other operation but `RST` moves it. -/
theorem exec_next_engPhase_cases (h : exec i s = .next t) (hi : i ≠ .rst) :
    (i = .engRxst ∧ s.eng.engPhase = .waitRx ∧ t.eng.engPhase = .waitTx) ∨
    (i = .engTxld ∧ s.eng.engPhase = .waitTx ∧ t.eng.engPhase = .waitRx) ∨
    (i ≠ .engRxst ∧ i ≠ .engTxld ∧ t.eng.engPhase = s.eng.engPhase) := by
  by_cases hst : i = .engRxst
  · subst hst
    obtain ⟨⟨hp, -⟩, rfl⟩ := execEngRxst_next h
    exact .inl ⟨rfl, hp, rfl⟩
  by_cases hld : i = .engTxld
  · subst hld
    obtain ⟨⟨hp, -⟩, rfl⟩ := execEngTxld_next h
    exact .inr (.inl ⟨rfl, hp, rfl⟩)
  obtain ⟨-, -, -, -, -, -, -, -, -, -, -, hwriter⟩ := engineHalfWriters i s t h hi
  refine .inr (.inr ⟨hst, hld, by_contra fun hne => ?_⟩)
  exact (hwriter hne).elim (fun hw => hst hw.1) (fun hw => hld hw.1)

/-- The ledger of the sequencer: the stores not yet followed by their load are those that the phase tells. -/
theorem execAll_stores_balance (h : execAll is s = .next t) (hrst : .rst ∉ is) :
    is.count .engRxst + s.eng.engPhase.toBit.toNat = is.count .engTxld + t.eng.engPhase.toBit.toNat := by
  induction is generalizing s with
  | nil =>
    cases h
    rfl
  | cons i is ih =>
    obtain ⟨u, hu, hrest⟩ := execAll_cons_next.mp h
    have hi : i ≠ .rst := fun hr => hrst (hr ▸ List.mem_cons_self)
    have htail := ih hrest (List.not_mem_of_not_mem_cons hrst)
    obtain ⟨rfl, hpre, hpost⟩ | ⟨rfl, hpre, hpost⟩ | ⟨hst, hld, hsame⟩ := exec_next_engPhase_cases hu hi
    · simp [hpre, hpost, Phase.toBit] at htail ⊢
      omega
    · simp [hpre, hpost, Phase.toBit] at htail ⊢
      omega
    · simpa [hst, hld, hsame] using htail

/-- Settles O56: the ledger from WAIT_RX, where no store waits for its load. -/
theorem storesAndLoadsAlternate : Obligations.StoresAndLoadsAlternate := by
  intro is s t h hrst hp
  have hledger := execAll_stores_balance h hrst
  rw [hp] at hledger
  cases hphase : t.eng.engPhase <;> simpa [hphase, Phase.toBit] using hledger

end

end Sys2Proof.Machine
end

section
/-! PROOFS. The received bytes stay on the inbound side (42_duplex_engine R223): an operation run with other received bytes ends
with other received bytes and, but for `RX.GET`, the same output. -/

namespace Sys2Proof.Machine

/-- The state with other received bytes. -/
def State.withReceived (buf : Memory) (slot : Byte) (s : State) : State :=
  { s with eng := { s.eng with rxBuf := buf, rxSlot := slot } }

section
variable {i : Instr} {s t : State}

/-- An operation that does not touch the engine half does the same whatever that half is. -/
theorem exec_next_with_eng (h : exec i s = .next t) (hi : touchesEngine i = false) (e : EngineHalf) :
    exec i { s with eng := e } = .next { t with eng := e } := by
  cases i with
  | cntCfg top init dir osr =>
    obtain ⟨hrepeat, rfl⟩ | ⟨hc, he, hl, rfl⟩ | ⟨hc, he, hl, rfl⟩ := execCntCfg_next h
    · exact if_pos (by simpa using hrepeat)
    · simp [execCntCfg, hc, he, hl, respond]
    · simp [execCntCfg, hc, he, hl, respond]
  | cntRd =>
    obtain ⟨hc, rfl⟩ | ⟨hc, rfl⟩ := execCntRd_next h
    · exact if_pos hc
    · exact if_neg (by simp [hc])
  | irqEn =>
    obtain rfl := execIrqEn_next h
    rfl
  | outSet lvl =>
    obtain ⟨hc, rfl⟩ | ⟨hc, rfl⟩ := execOutSet_next h
    · exact if_pos hc
    · exact if_neg (by simp [hc])
  | edge =>
    obtain rfl := execEdge_next h
    rfl
  | utlSvc =>
    obtain ⟨⟨hp, hen⟩, rfl⟩ := execUtlSvc_next h
    exact execUtlSvc_of_request hp hen
  | statRd | txPut | rxGet | engPreload | engEn | xchg | rst | engRxst | engTxld => simp [touchesEngine] at hi

/-- Exchanges of two bytes, from states that differ in the received bytes: the next states differ there, and the master gets
the same byte. -/
theorem exec_xchg_next_withReceived {m : Byte} (h : exec (.xchg m) s = .next t) (m' : Byte) (buf : Memory)
    (slot : Byte) :
    ∃ slot', exec (.xchg m') (s.withReceived buf slot) = .next (t.withReceived buf slot') := by
  obtain ⟨hn, rfl⟩ | ⟨hn, rfl⟩ := execXchg_next h
  · exact ⟨_, execXchg_of_enabled hn⟩
  · exact ⟨_, execXchg_of_disabled hn⟩

/-- What an operation does from a state with other received bytes. -/
theorem exec_next_withReceived (h : exec i s = .next t) (buf : Memory) (slot : Byte) :
    ∃ buf' slot' o, exec i (s.withReceived buf slot) = .next { t.withReceived buf' slot' with output := o } ∧
      (i ≠ .rxGet → o = t.output) := by
  cases i with
  | cntCfg | cntRd | irqEn | outSet | edge | utlSvc =>
    rw [State.withReceived, exec_next_with_eng h rfl, ← (operationsStayInTheirHalf _ s t h).2.1 (.inl rfl)]
    exact ⟨buf, slot, _, rfl, fun _ => rfl⟩
  | statRd =>
    obtain ⟨hc, rfl⟩ | ⟨hc, rfl⟩ := execStatRd_next h
    · exact ⟨_, _, _, if_pos hc, fun _ => rfl⟩
    · exact ⟨_, _, _, if_neg (by simp [State.withReceived, hc]), fun _ => rfl⟩
  | txPut b =>
    obtain ⟨hn, rfl⟩ | ⟨hn, rfl⟩ := execTxPut_next h
    · exact ⟨_, _, _, execTxPut_of_enabled hn, fun _ => rfl⟩
    · exact ⟨_, _, _, if_neg (by simp [State.withReceived, hn]), fun _ => rfl⟩
  | rxGet =>
    obtain rfl := execRxGet_next h
    exact ⟨_, _, _, rfl, fun hne => absurd rfl hne⟩
  | engPreload =>
    obtain ⟨hn, rfl⟩ | ⟨hn, rfl⟩ := execEngPreload_next h
    · exact ⟨_, _, _, execEngPreload_of_enabled hn, fun _ => rfl⟩
    · exact ⟨_, _, _, execEngPreload_of_disabled hn, fun _ => rfl⟩
  | engEn =>
    obtain ⟨hn, rfl⟩ | ⟨hn, rfl⟩ := execEngEn_next h
    · exact ⟨_, _, _, execEngEn_of_enabled hn, fun _ => rfl⟩
    · exact ⟨_, _, _, execEngEn_of_disabled hn, fun _ => rfl⟩
  | xchg m =>
    obtain ⟨slot', hx⟩ := exec_xchg_next_withReceived h m buf slot
    exact ⟨buf, slot', t.output, hx, fun _ => rfl⟩
  | rst =>
    obtain rfl := execRst_next h
    exact ⟨_, _, _, rfl, fun _ => rfl⟩
  | engRxst =>
    obtain ⟨⟨hp, hf⟩, rfl⟩ := execEngRxst_next h
    exact ⟨_, _, _, execEngRxst_of_guard hp hf, fun _ => rfl⟩
  | engTxld =>
    obtain ⟨⟨hp, hf⟩, rfl⟩ := execEngTxld_next h
    exact ⟨_, _, _, execEngTxld_of_guard hp hf, fun _ => rfl⟩

end

/-- Settles O42: each run from the state with other received bytes is the one the lemmas give. -/
theorem transmitSideIgnoresReceivedBytes : Obligations.TransmitSideIgnoresReceivedBytes := by
  intro i m m' s s' t t' hs
  obtain ⟨buf, slot, rfl⟩ : ∃ buf slot, s' = s.withReceived buf slot := ⟨_, _, hs⟩
  refine ⟨fun h h' => ?_, fun h h' => ?_⟩
  · obtain ⟨slot', hx⟩ := exec_xchg_next_withReceived h m' buf slot
    obtain rfl := Host.Outcome.next.inj (hx.symm.trans h')
    rfl
  · obtain ⟨buf', slot', o, hx, ho⟩ := exec_next_withReceived h buf slot
    obtain rfl := Host.Outcome.next.inj (hx.symm.trans h')
    exact ⟨rfl, ho⟩

end Sys2Proof.Machine
end

section
/-! PROOFS. What other agents do between the engine's own steps (42_duplex_engine R220): the steps that drive the engine can be
run alone, and the engine, its streams and its exchanges are the same. -/

namespace Sys2Proof.Machine

/-- The two states have the same engine but for the host's read index, which no step that drives the engine looks at. -/
structure SameDrive (s s' : State) : Prop where
  params : s'.params = s.params
  eng : ∃ k, s'.eng = { s.eng with rxRd := k }

section
variable {i : Instr} {s s' t : State}

theorem SameDrive.refl (s : State) : SameDrive s s := ⟨rfl, s.eng.rxRd, rfl⟩

/-- A step of another agent, or the host's read of the inbound buffer. -/
theorem SameDrive.after_other_step (hs : SameDrive s s') (h : exec i s = .next t) (hi : drivesEngine i = false) :
    SameDrive t s' := by
  obtain ⟨k, hk⟩ := hs.eng
  refine ⟨hs.params.trans (exec_next_keeps_surroundings h).1.symm, k, ?_⟩
  by_cases hg : i = .rxGet
  · subst hg
    obtain rfl := execRxGet_next h
    exact hk
  · have hkeeps : touchesEngine i = false ∨ i = .statRd := by
      simpa [drivesEngine, hg, imp_iff_not_or] using hi
    rwa [(operationsStayInTheirHalf i s t h).2.1 hkeeps]

/-- A step that drives the engine does the same to both engines and puts out the same. -/
theorem SameDrive.exec_next (hs : SameDrive s s') (h : exec i s = .next t) (hi : drivesEngine i = true) :
    ∃ t', exec i s' = .next t' ∧ SameDrive t t' ∧ t'.output = t.output := by
  obtain ⟨p', c', e', o', q', n'⟩ := s'
  obtain ⟨rfl, k, rfl⟩ := hs
  cases i with
  | txPut b =>
    obtain ⟨hn, rfl⟩ | ⟨hn, rfl⟩ := execTxPut_next h
    · exact ⟨_, execTxPut_of_enabled hn, ⟨rfl, k, rfl⟩, rfl⟩
    · exact ⟨_, if_neg (by simp [hn]), ⟨rfl, k, rfl⟩, rfl⟩
  | engPreload =>
    obtain ⟨hn, rfl⟩ | ⟨hn, rfl⟩ := execEngPreload_next h
    · exact ⟨_, execEngPreload_of_enabled hn, ⟨rfl, k, rfl⟩, rfl⟩
    · exact ⟨_, execEngPreload_of_disabled hn, ⟨rfl, k, rfl⟩, rfl⟩
  | engEn =>
    obtain ⟨hn, rfl⟩ | ⟨hn, rfl⟩ := execEngEn_next h
    · exact ⟨_, execEngEn_of_enabled hn, ⟨rfl, k, rfl⟩, rfl⟩
    · exact ⟨_, execEngEn_of_disabled hn, ⟨rfl, k, rfl⟩, rfl⟩
  | xchg m =>
    obtain ⟨hn, rfl⟩ | ⟨hn, rfl⟩ := execXchg_next h
    · exact ⟨_, execXchg_of_enabled hn, ⟨rfl, k, rfl⟩, rfl⟩
    · exact ⟨_, execXchg_of_disabled hn, ⟨rfl, k, rfl⟩, rfl⟩
  | rst =>
    obtain rfl := execRst_next h
    exact ⟨_, rfl, ⟨rfl, 0, rfl⟩, rfl⟩
  | engRxst =>
    obtain ⟨⟨hp, hf⟩, rfl⟩ := execEngRxst_next h
    exact ⟨_, execEngRxst_of_guard hp hf, ⟨rfl, k, rfl⟩, rfl⟩
  | engTxld =>
    obtain ⟨⟨hp, hf⟩, rfl⟩ := execEngTxld_next h
    exact ⟨_, execEngTxld_of_guard hp hf, ⟨rfl, k, rfl⟩, rfl⟩
  | cntCfg | cntRd | irqEn | outSet | statRd | rxGet | edge | utlSvc => simp [drivesEngine, touchesEngine] at hi

end

/-! What is seen of a step. -/

/-- The byte a step writes into the transmit slot (42_duplex_engine R222 (a)). -/
def Taken.slotLoad (k : Taken) : Option Byte :=
  if k.op == .engTxld || (k.op == .engPreload && !k.pre.eng.engEn) then some k.post.eng.txSlot else none

/-- The byte a step sends to the master (42_duplex_engine R222 (b)). -/
def Taken.wireByte (k : Taken) : Option Byte :=
  match k.post.output with
  | .miso b => some b
  | .silent => none
  | .response _ => none

/-- The two flags an exchange meets (70_reset_and_hazards R334). -/
def Taken.flagsMet (k : Taken) : Option (Bool × Bool) :=
  match k.op with
  | .xchg _ => some (k.pre.eng.rxFull, k.pre.eng.txFull)
  | _ => none

/-- The flags that the exchanges of a trace meet. -/
def flagsMet (is : List Instr) (s : State) : List (Bool × Bool) := (trail is s).filterMap Taken.flagsMet

theorem slotLoads_eq_filterMap (is : List Instr) (s : State) :
    slotLoads is s = (trail is s).filterMap Taken.slotLoad := rfl

theorem wireStream_eq_filterMap (is : List Instr) (s : State) :
    wireStream is s = (trail is s).filterMap Taken.wireByte := rfl

/-- What is seen belongs to the engine: a step of another agent shows nothing, and nothing else is looked at than the engine
but for the read index, and the output. -/
structure EngineObservation {α : Type} (f : Taken → Option α) : Prop where
  other : ∀ {i : Instr} {s t : State}, exec i s = .next t → drivesEngine i = false → f ⟨i, s, t⟩ = none
  same : ∀ {i : Instr} {s s' t t' : State}, SameDrive s s' → SameDrive t t' → t'.output = t.output →
    f ⟨i, s', t'⟩ = f ⟨i, s, t⟩

theorem Taken.slotLoad_observation : EngineObservation Taken.slotLoad where
  other := by
    intro i s t _ hi
    have hld : i ≠ .engTxld := fun he => absurd (he ▸ hi) (by decide)
    have hpre : i ≠ .engPreload := fun he => absurd (he ▸ hi) (by decide)
    simp [Taken.slotLoad, hld, hpre]
  same := by
    rintro i s s' t t' ⟨-, k, hk⟩ ⟨-, l, hl⟩ -
    simp [Taken.slotLoad, hk, hl]

theorem Taken.wireByte_observation : EngineObservation Taken.wireByte where
  other := by
    intro i s t h hi
    have hans := exec_next_answers h
    unfold Taken.wireByte
    generalize t.output = o at hans ⊢
    cases hans with
    | miso m v => simp [drivesEngine, touchesEngine] at hi
    | response | silent => rfl
  same := by
    intro i s s' t t' _ _ ho
    simp [Taken.wireByte, ho]

theorem Taken.flagsMet_observation : EngineObservation Taken.flagsMet where
  other := by
    intro i s t _ hi
    cases i with
    | xchg m => simp [drivesEngine, touchesEngine] at hi
    | _ => rfl
  same := by
    rintro i s s' t t' ⟨-, k, hk⟩ - -
    simp [Taken.flagsMet, hk]

/-- The steps of a trace that drive the engine, run alone, are a trace; it ends with the same engine and shows the same. -/
theorem execAll_filter_drivesEngine {js : List Instr} {s s' t : State} (h : execAll js s = .next t)
    (hs : SameDrive s s') :
    ∃ t', execAll (js.filter drivesEngine) s' = .next t' ∧ SameDrive t t' ∧
      ∀ {α : Type} {f : Taken → Option α}, EngineObservation f →
        (trail (js.filter drivesEngine) s').filterMap f = (trail js s).filterMap f := by
  induction js generalizing s s' with
  | nil =>
    cases h
    exact ⟨s', rfl, hs, fun _ => rfl⟩
  | cons i js ih =>
    obtain ⟨u, hu, hrest⟩ := execAll_cons_next.mp h
    cases hi : drivesEngine i
    · obtain ⟨t', ht', hsame, hseen⟩ := ih hrest (hs.after_other_step hu hi)
      rw [List.filter_cons_of_neg (by simp [hi])]
      refine ⟨t', ht', hsame, fun hf => ?_⟩
      rw [hseen hf, trail_cons_next hu, List.filterMap_cons_none (hf.other hu hi)]
    · obtain ⟨u', hu', hsame', ho⟩ := hs.exec_next hu hi
      obtain ⟨t', ht', hsame, hseen⟩ := ih hrest hsame'
      rw [List.filter_cons_of_pos hi]
      refine ⟨t', execAll_cons_next.mpr ⟨u', hu', ht'⟩, hsame, fun hf => ?_⟩
      rw [trail_cons_next hu', trail_cons_next hu, List.filterMap_cons, List.filterMap_cons, hf.same hs hsame' ho,
        hseen hf]

end Sys2Proof.Machine
end

section
/-! PROOFS. The hazard-free run (42_duplex_engine R220 to R222): reset, fill, pre-load and enable bring the engine to the start
of its first cycle, and each cycle from there brings it to the start of the next. -/

namespace Sys2Proof.Machine

/-! The streams of a trace cut in two. -/

section
variable {is : List Instr} {s t : State}

theorem slotLoads_append_next (h : execAll is s = .next t) (js : List Instr) :
    slotLoads (is ++ js) s = slotLoads is s ++ slotLoads js t := by
  simp only [slotLoads_eq_filterMap, trail_append_next h, List.filterMap_append]

theorem wireStream_append_next (h : execAll is s = .next t) (js : List Instr) :
    wireStream (is ++ js) s = wireStream is s ++ wireStream js t := by
  simp only [wireStream_eq_filterMap, trail_append_next h, List.filterMap_append]

theorem flagsMet_append_next (h : execAll is s = .next t) (js : List Instr) :
    flagsMet (is ++ js) s = flagsMet is s ++ flagsMet js t := by
  simp only [flagsMet, trail_append_next h, List.filterMap_append]

theorem slotLoads_eq_nil (hp : .engPreload ∉ is) (hl : .engTxld ∉ is) (s : State) : slotLoads is s = [] := by
  refine List.filterMap_eq_nil_iff.mpr fun k hk => ?_
  have hop := op_mem_of_mem_trail hk
  have hpre : k.op ≠ .engPreload := fun he => hp (he ▸ hop)
  have hld : k.op ≠ .engTxld := fun he => hl (he ▸ hop)
  simp [hpre, hld]

end

/-! Reset, fill, pre-load, enable. -/

/-- The engine is at the start of a cycle that meets no hazard: enabled, in WAIT_RX, nothing received, a byte to send. -/
structure EngineHalf.Ready (e : EngineHalf) : Prop where
  enabled : e.engEn = true
  phase : e.engPhase = .waitRx
  rx_empty : e.rxFull = false
  tx_full : e.txFull = true

/-- A fill writes the outbound buffer and its write index, nothing else. -/
theorem EngineHalf.fillTx_frame (cap : Nat) (bs : List Byte) (e : EngineHalf) :
    e.fillTx cap bs = { e with txBuf := (e.fillTx cap bs).txBuf, txWr := (e.fillTx cap bs).txWr } := by
  induction bs generalizing e with
  | nil => rfl
  | cons b bs ih => exact ih (e.putTx cap b)

/-- The engine half after reset, fill, pre-load and enable. -/
def EngineHalf.started (cap : Nat) (bs : List Byte) (e : EngineHalf) : EngineHalf :=
  { ((e.afterRst cap).fillTx cap bs).preloadTx with engEn := true }

theorem EngineHalf.started_frame (cap : Nat) (bs : List Byte) (e : EngineHalf) :
    e.started cap bs = { e.afterRst cap with
      txBuf := (e.started cap bs).txBuf, txWr := (e.started cap bs).txWr, txSlot := (e.started cap bs).txSlot
      txFull := true, engEn := true } := by
  unfold EngineHalf.started
  rw [EngineHalf.fillTx_frame]
  rfl

theorem EngineHalf.started_ready (cap : Nat) (bs : List Byte) (e : EngineHalf) : (e.started cap bs).Ready := by
  rw [EngineHalf.started_frame]
  exact ⟨rfl, rfl, rfl, rfl⟩

/-- Reset, fill, pre-load and enable complete, whatever the number of bytes, and load the slot once. -/
theorem execAll_start (bs : List Byte) (s : State) :
    ∃ t, execAll (.rst :: Instr.txFill bs ++ [.engPreload, .engEn]) s = .next t ∧ t.params = s.params ∧
      t.eng = s.eng.started s.params.cap bs ∧
      slotLoads (.rst :: Instr.txFill bs ++ [.engPreload, .engEn]) s = [t.eng.txSlot] := by
  obtain ⟨o, hfill⟩ :=
    execAll_txFill bs (s := silent { s with cnt := s.cnt.afterRst, eng := s.eng.afterRst s.params.cap }) rfl
  obtain ⟨u, hfilled, hpar, heng⟩ : ∃ u, execAll (.rst :: Instr.txFill bs) s = .next u ∧ u.params = s.params ∧
      u.eng = (s.eng.afterRst s.params.cap).fillTx s.params.cap bs :=
    ⟨_, execAll_cons_next.mpr ⟨_, rfl, hfill⟩, rfl, rfl⟩
  have hn : u.eng.engEn = false := by rw [heng, EngineHalf.fillTx_frame]; rfl
  have hpre : exec .engPreload u = .next (respond .ok 0 { u with eng := u.eng.preloadTx }) :=
    execEngPreload_of_disabled hn
  have hen : exec .engEn (respond .ok 0 { u with eng := u.eng.preloadTx }) = .next _ := execEngEn_of_disabled hn
  have hlast := execAll_cons_next.mpr ⟨_, hpre, execAll_cons_next.mpr ⟨_, hen, execAll_nil _⟩⟩
  refine ⟨_, execAll_append_next.mpr ⟨u, hfilled, hlast⟩, hpar, by rw [EngineHalf.started, ← heng]; rfl, ?_⟩
  rw [slotLoads_append_next hfilled, slotLoads_eq_nil (by simp [Instr.txFill]) (by simp [Instr.txFill]),
    slotLoads_eq_filterMap, trail_cons_next hpre, trail_cons_next hen]
  simp [Taken.slotLoad, hn]

/-! One cycle. -/

/-- The engine half after an exchange, its store and its load. -/
def EngineHalf.cycle (p : Config.Params) (m : Byte) (e : EngineHalf) : EngineHalf :=
  { EngineHalf.loadTx p.cap
      { (e.exchange p.overrun m).storeRx p.cap with rxFull := false, engPhase := .waitTx } with engPhase := .waitRx }

section
variable {e : EngineHalf} {s : State}

theorem EngineHalf.Ready.cycle (h : e.Ready) (p : Config.Params) (m : Byte) : (e.cycle p m).Ready :=
  ⟨h.enabled, rfl, rfl, rfl⟩

/-- A cycle stores the byte of the master, for nothing received was waiting, and no other. -/
theorem EngineHalf.Ready.memRead_rx_cycle (h : e.Ready) (p : Config.Params) (m : Byte) (j : Nat) :
    (e.cycle p m).memRead .rx j = if j = e.rxWr then m else e.memRead .rx j := by
  have hslot : (e.exchange p.overrun m).rxSlot = m := by simp [h.rx_empty]
  have hstore := (e.exchange p.overrun m).memRead_storeRx p.cap j
  rw [hslot] at hstore
  exact hstore

/-- A cycle from its start completes; it loads the slot once, sends the byte of the slot, and meets no hazard. -/
theorem execAll_cycle (h : s.eng.Ready) (m : Byte) :
    ∃ t, execAll (Instr.cycle m) s = .next t ∧ t.params = s.params ∧ t.eng = s.eng.cycle s.params m ∧
      slotLoads (Instr.cycle m) s = [t.eng.txSlot] ∧ wireStream (Instr.cycle m) s = [s.eng.txSlot] ∧
      flagsMet (Instr.cycle m) s = [(false, true)] := by
  obtain ⟨u, hx, hup, hue, huo⟩ : ∃ u, exec (.xchg m) s = .next u ∧ u.params = s.params ∧
      u.eng = s.eng.exchange s.params.overrun m ∧ u.output = .miso s.eng.txSlot :=
    ⟨_, execXchg_of_enabled h.enabled, rfl, rfl, congrArg Output.miso (EngineHalf.misoByte_of_full h.enabled h.tx_full)⟩
  obtain ⟨v, hst, hvp, hve, hvo⟩ : ∃ v, exec .engRxst u = .next v ∧ v.params = s.params ∧
      v.eng = { (s.eng.exchange s.params.overrun m).storeRx s.params.cap with rxFull := false, engPhase := .waitTx } ∧
      v.output = .silent :=
    ⟨_, execEngRxst_of_guard (by rw [hue]; exact h.phase) (by rw [hue]; rfl), hup, by rw [← hue, ← hup]; rfl, rfl⟩
  obtain ⟨t, hld, htp, hte, hto⟩ : ∃ t, exec .engTxld v = .next t ∧ t.params = s.params ∧
      t.eng = s.eng.cycle s.params m ∧ t.output = .silent :=
    ⟨_, execEngTxld_of_guard (by rw [hve]) (by rw [hve]; rfl), hvp, by rw [EngineHalf.cycle, ← hve, ← hvp]; rfl, rfl⟩
  refine ⟨t, execAll_cons_next.mpr ⟨u, hx, execAll_cons_next.mpr ⟨v, hst, execAll_cons_next.mpr ⟨t, hld, rfl⟩⟩⟩,
    htp, hte, ?_⟩
  rw [slotLoads_eq_filterMap, wireStream_eq_filterMap, flagsMet, Instr.cycle, trail_cons_next hx, trail_cons_next hst,
    trail_cons_next hld]
  simp [Taken.slotLoad, Taken.wireByte, Taken.flagsMet, huo, hvo, hto, h.rx_empty, h.tx_full]

/-- Cycles from their start complete. -/
theorem execAll_cycles_of_ready (ms : List Byte) (h : s.eng.Ready) : ∃ t, execAll (Instr.cycles ms) s = .next t := by
  induction ms generalizing s with
  | nil => exact ⟨s, rfl⟩
  | cons m ms ih =>
    obtain ⟨u, hu, -, heng, -⟩ := execAll_cycle h m
    obtain ⟨t, ht⟩ := ih (s := u) (heng ▸ h.cycle s.params m)
    exact ⟨t, execAll_append_next.mpr ⟨u, hu, ht⟩⟩

end

/-! The cycles of a run. -/

/-- Where the engine `e` stands that started as `e₀` with the bytes `bs` to send, after a cycle for each byte of `ms`
(42_duplex_engine R221). -/
structure EngineHalf.Served (cap : Nat) (bs : List Byte) (e₀ : EngineHalf) (ms : List Byte) (e : EngineHalf) :
    Prop where
  ready : e.Ready
  rxWr : e.rxWr = ms.length % cap
  txRd : e.txRd = (ms.length + 1) % cap
  txSlot : bs[ms.length % cap]? = some e.txSlot
  outbound : ∀ j < cap, bs[j]? = some (e.memRead .tx j)
  stored : ∀ i b, ms[i]? = some b → ms.length ≤ i + cap → e.memRead .rx (i % cap) = b
  untouched : ∀ j, ms.length ≤ j → j < cap → e.memRead .rx j = e₀.memRead .rx j

section
variable {cap : Nat} {bs ms : List Byte} {e₀ e : EngineHalf}

/-- The start: the fill put each byte at its place, and the pre-load took the first. -/
theorem EngineHalf.started_served (hcap : 1 ≤ cap) (hlen : bs.length = cap) (e : EngineHalf) :
    EngineHalf.Served cap bs (e.started cap bs) [] (e.started cap bs) := by
  have hfilled : ∀ j < cap, bs[j]? = some (((e.afterRst cap).fillTx cap bs).memRead .tx j) := by
    intro j hj
    have hget := List.getElem?_eq_getElem (hlen.symm ▸ hj : j < bs.length)
    have hread := EngineHalf.memRead_fillTx (e := e.afterRst cap) hcap hlen.le hget
    rw [EngineHalf.afterRst_txWr, Nat.zero_add, Nat.mod_eq_of_lt hj] at hread
    rw [hget, hread]
  exact {
    ready := e.started_ready cap bs
    rxWr := by rw [EngineHalf.started_frame]; exact (Nat.zero_mod cap).symm
    txRd := by rw [EngineHalf.started_frame]; rfl
    txSlot := (Nat.zero_mod cap).symm ▸ hfilled 0 hcap
    outbound := hfilled
    stored := by simp
    untouched := fun _ _ _ => rfl }

/-- A cycle carries the engine to where it stands with one byte more. -/
theorem EngineHalf.Served.cycle {p : Config.Params} (h : EngineHalf.Served p.cap bs e₀ ms e) (hcap : 1 ≤ p.cap)
    (m : Byte) : EngineHalf.Served p.cap bs e₀ (ms ++ [m]) (e.cycle p m) where
  ready := h.ready.cycle p m
  rxWr := by
    rw [List.length_append, List.length_singleton, ← advance_mod, ← h.rxWr]
    rfl
  txRd := by
    rw [List.length_append, List.length_singleton, ← advance_mod, ← h.txRd]
    rfl
  txSlot := by
    rw [List.length_append, List.length_singleton, h.outbound _ (Nat.mod_lt _ hcap), ← h.txRd]
    rfl
  outbound := h.outbound
  stored := by
    intro i b hi hle
    rw [List.length_append, List.length_singleton] at hle
    rw [h.ready.memRead_rx_cycle, h.rxWr]
    have hlt : i < ms.length + 1 := by simpa using (List.getElem?_eq_some_iff.mp hi).1
    obtain hold | rfl := Nat.lt_succ_iff_lt_or_eq.mp hlt
    · have hne : i % p.cap ≠ ms.length % p.cap := by
        have := add_mod_ne_of_lt (cap := p.cap) (w := i) (k := 0) (n := ms.length - i) (by omega) (by omega)
        rwa [Nat.add_zero, Nat.add_sub_cancel' hold.le] at this
      rw [if_neg hne]
      exact h.stored i b (by rwa [List.getElem?_append_left hold] at hi) (by omega)
    · rw [if_pos rfl]
      simpa using hi
  untouched := by
    intro j hle hj
    rw [List.length_append, List.length_singleton] at hle
    have hne : j ≠ e.rxWr := by
      rw [h.rxWr, Nat.mod_eq_of_lt (by omega)]
      omega
    rw [h.ready.memRead_rx_cycle, if_neg hne]
    exact h.untouched j (by omega) hj

/-- The cycles from the start: where the engine ends, both streams, and the flags that the exchanges meet. -/
theorem execAll_cycles_of_served {s : State} (hcap : 1 ≤ s.params.cap)
    (h : EngineHalf.Served s.params.cap bs s.eng [] s.eng) (ms : List Byte) :
    ∃ t, execAll (Instr.cycles ms) s = .next t ∧ t.params = s.params ∧
      EngineHalf.Served s.params.cap bs s.eng ms t.eng ∧
      (slotLoads (Instr.cycles ms) s).map some =
        (List.range ms.length).map (fun k => bs[(k + 1) % s.params.cap]?) ∧
      (wireStream (Instr.cycles ms) s).map some = (List.range ms.length).map (fun k => bs[k % s.params.cap]?) ∧
      flagsMet (Instr.cycles ms) s = List.replicate ms.length (false, true) := by
  induction ms using List.reverseRecOn with
  | nil => exact ⟨s, rfl, rfl, h, rfl, rfl, rfl⟩
  | append_singleton ms m ih =>
    obtain ⟨u, hu, hpar, hserved, hloads, hwire, hflags⟩ := ih
    obtain ⟨t, ht, hpar', heng, hload, hbyte, hflag⟩ := execAll_cycle hserved.ready m
    have hcycles : Instr.cycles (ms ++ [m]) = Instr.cycles ms ++ Instr.cycle m := by simp [Instr.cycles]
    have hnext : EngineHalf.Served s.params.cap bs s.eng (ms ++ [m]) t.eng := by
      rw [heng, hpar]
      exact hserved.cycle hcap m
    have hslot := hnext.txSlot
    rw [List.length_append, List.length_singleton] at hslot ⊢
    rw [hcycles]
    refine ⟨t, execAll_append_next.mpr ⟨u, hu, ht⟩, hpar'.trans hpar, hnext, ?_, ?_, ?_⟩
    · rw [slotLoads_append_next hu, hload, List.map_append, hloads, List.range_succ, List.map_append]
      simp [hslot]
    · rw [wireStream_append_next hu, hbyte, List.map_append, hwire, List.range_succ, List.map_append]
      simp [hserved.txSlot]
    · rw [flagsMet_append_next hu, hflags, hflag, List.replicate_succ']

end

/-- Settles O58: the steps that drive the engine, run alone, are the start and the cycles, and what other agents do between
changes nothing of the engine but the read index. -/
theorem hazardFreeRunStreamsAreExact : Obligations.HazardFreeRunStreamsAreExact := by
  refine ⟨fun bs ms is js s r t hp hlen his hr hjs ht => ?_, fun bs ms s => ?_⟩
  · have hcap := one_le_cap_of_wellFormed hp
    obtain ⟨r', hr', hpar, heng, hload⟩ := execAll_start bs s
    obtain ⟨r₁, hr₁, hsame, hseen⟩ := execAll_filter_drivesEngine hr (SameDrive.refl s)
    rw [his] at hr₁ hseen
    obtain rfl := Host.Outcome.next.inj (hr₁.symm.trans hr')
    have hstart : EngineHalf.Served r₁.params.cap bs r₁.eng [] r₁.eng := by
      rw [heng, hpar]
      exact EngineHalf.started_served hcap hlen s.eng
    obtain ⟨t', ht', -, hserved, hloads, hwire, hflags⟩ := execAll_cycles_of_served (hpar ▸ hcap) hstart ms
    obtain ⟨t₁, ht₁, hsame', hseen'⟩ := execAll_filter_drivesEngine ht hsame
    rw [hjs] at ht₁ hseen'
    obtain rfl := Host.Outcome.next.inj (ht₁.symm.trans ht')
    obtain ⟨-, k, hk⟩ := hsame
    obtain ⟨-, l, hl⟩ := hsame'
    rw [hpar] at hserved hloads hwire
    rw [hk, hl] at hserved
    have hmet : flagsMet js r = List.replicate ms.length (false, true) :=
      (hseen' Taken.flagsMet_observation).symm.trans hflags
    refine ⟨hserved.rxWr, hserved.txRd, hserved.txSlot, hserved.ready.tx_full, hserved.ready.rx_empty,
      hserved.ready.phase, hserved.stored, hserved.untouched, ?_, ?_, ?_, ?_⟩
    · rintro x hx ⟨m, hop⟩
      have hmem : (x.pre.eng.rxFull, x.pre.eng.txFull) ∈ flagsMet js r :=
        List.mem_filterMap.mpr ⟨x, hx, by simp [Taken.flagsMet, hop]⟩
      rw [hmet] at hmem
      simpa using List.eq_of_mem_replicate hmem
    · rw [slotLoads_eq_filterMap, ← hseen Taken.slotLoad_observation, ← slotLoads_eq_filterMap, hload]
      simpa using hstart.txSlot.symm
    · rw [slotLoads_eq_filterMap, ← hseen' Taken.slotLoad_observation]
      exact hloads
    · rw [wireStream_eq_filterMap, ← hseen' Taken.wireByte_observation]
      exact hwire
  · obtain ⟨u, hu, -, heng, -⟩ := execAll_start bs s
    have hready : u.eng.Ready := heng ▸ s.eng.started_ready s.params.cap bs
    obtain ⟨t, ht⟩ := execAll_cycles_of_ready ms hready
    exact ⟨t, execAll_append_next.mpr ⟨u, hu, ht⟩⟩

end Sys2Proof.Machine
end

section
/-! PROOFS. The status word (10_state R48, 43_system_ops R250). -/

namespace Sys2Proof

theorem Direction.toBit_iff (d : Direction) : d.toBit = true ↔ d = .up := by cases d <;> decide

namespace Machine

theorem Phase.toBit_iff (p : Phase) : p.toBit = true ↔ p = .waitTx := by cases p <;> decide

/-- `STAT.RD` answers `OK` and the status word, in every state; the free bit 2 and the draw it costs belong to the time before
configuration. -/
theorem exec_statRd_eq (s : State) :
    ∃ dir n,
      exec .statRd s =
        .next (respond .ok (statWord dir s.cnt s.eng) { s with cnt := { s.cnt with draws := n } }) ∧
      (s.cnt.configured = true → dir = s.cnt.cntDir.toBit ∧ n = s.cnt.draws) := by
  rw [exec_statRd]
  cases hc : s.cnt.configured
  · exact ⟨Config.counterBit s.cnt.draws, s.cnt.draws + 1, if_neg (by simp [hc]), nofun⟩
  · exact ⟨s.cnt.cntDir.toBit, s.cnt.draws, if_pos hc, fun _ => ⟨rfl, rfl⟩⟩

/-- The low bits of an answer `OK` are its data. -/
theorem responseWord_ok_getLsbD (d : Half) {k : Nat} (hk : k < 16) :
    (responseWord .ok d).getLsbD k = d.getLsbD k := by
  rw [responseWord_ok, BitVec.getLsbD_setWidth, decide_eq_true (by omega), Bool.true_and]

/-- The status and the zero byte of an answer `OK` (30_encoding R104). -/
theorem responseWord_ok_high (d : Half) : (responseWord .ok d).extractLsb' 16 16 = 0#16 := by
  ext i hi
  simp

/-- Bits 15:12 of the status word are reserved (10_state R48). -/
theorem responseWord_statWord_reserved (dir : Bool) (c : CounterHalf) (e : EngineHalf) :
    (responseWord .ok (statWord dir c e)).extractLsb' 12 4 = 0#4 := by
  ext i hi
  rw [BitVec.getElem_extractLsb', responseWord_ok_getLsbD _ (by omega), statWord_getLsbD, BitVec.getElem_zero]
  interval_cases i <;> rfl

/-- Settles O16: each bit of the answer is that bit of the status word, and two of them are codes of a direction and of a
phase. -/
theorem statRdAnswersTheStatusWord : Obligations.StatRdAnswersTheStatusWord := by
  intro s
  obtain ⟨dir, n, hexec, hconf⟩ := exec_statRd_eq s
  have hbit (k : Nat) (hk : k < 16) :=
    (responseWord_ok_getLsbD (statWord dir s.cnt s.eng) hk).trans (statWord_getLsbD dir s.cnt s.eng k)
  have hdir (hc : s.cnt.configured = true) :=
    (Bool.eq_iff_iff.mp ((hbit 2 (by decide)).trans (hconf hc).1)).trans (Direction.toBit_iff s.cnt.cntDir)
  have hphase := (Bool.eq_iff_iff.mp (hbit 9 (by decide))).trans (Phase.toBit_iff s.eng.engPhase)
  exact ⟨_, _, hexec, rfl, rfl, fun hc => (hconf hc).2, responseWord_ok_high _, hbit 0 (by decide),
    hbit 1 (by decide), hdir, hbit 3 (by decide), hbit 4 (by decide), hbit 5 (by decide),
    hbit 6 (by decide), hbit 7 (by decide), hbit 8 (by decide), hphase,
    hbit 10 (by decide), hbit 11 (by decide), responseWord_statWord_reserved dir s.cnt s.eng⟩

end Machine
end Sys2Proof
end

section
/-! PROOFS. The core is the product of its two halves (60_exceptions R291, 00_scope R3): a half is a view of the state that the
operations touching it carry on by themselves and that no other operation moves. -/

namespace Sys2Proof.Machine

/-- A view of the state after an outcome, if there is a next state. -/
def viewAfter {α : Type} (view : State → α) : Result → Option α
  | .next t => some (view t)
  | .fault _ => none
  | .refused _ => none

theorem viewAfter_eq_some_iff {α : Type} {view : State → α} {r : Result} {a : α} :
    viewAfter view r = some a ↔ ∃ t, r = .next t ∧ view t = a := by
  cases r <;> simp [viewAfter]

/-- The view is a machine of its own: the operations of the half do to it what it alone tells, and the others leave it. -/
structure IsHalf {α : Type} (touches : Instr → Bool) (view : State → α) : Prop where
  acts : ∀ {i : Instr} {s s' : State}, touches i = true → view s' = view s →
    viewAfter view (exec i s') = viewAfter view (exec i s)
  frame : ∀ {i : Instr} {s t : State}, exec i s = .next t → touches i = false → view t = view s

/-- What the operations of the engine half see: its registers and buffers, and the parameters. -/
def State.engineView (s : State) : Config.Params × EngineHalf := (s.params, s.eng)

theorem counterHalf_isHalf : IsHalf touchesCounter State.cnt where
  acts {i s s'} hi hs := by
    obtain ⟨p, c, e, o, q, n⟩ := s
    obtain ⟨p', c', e', o', q', n'⟩ := s'
    obtain rfl : c' = c := hs
    cases i with
    | cntCfg | cntRd | outSet | statRd | utlSvc =>
      simp only [exec_cntCfg, exec_cntRd, exec_outSet, exec_statRd, exec_utlSvc, execCntCfg, execCntRd, execOutSet,
        execStatRd, execUtlSvc]
      split_ifs <;> rfl
    | irqEn | edge | rst => rfl
    | txPut | rxGet | engPreload | engEn | xchg | engRxst | engTxld => cases hi
  frame h hi := (operationsStayInTheirHalf _ _ _ h).1 hi

theorem engineHalf_isHalf : IsHalf touchesEngine State.engineView where
  acts {i s s'} hi hs := by
    obtain ⟨p, c, e, o, q, n⟩ := s
    obtain ⟨p', c', e', o', q', n'⟩ := s'
    obtain ⟨rfl, rfl⟩ : p' = p ∧ e' = e := Prod.mk.inj hs
    cases i with
    | statRd | txPut | engPreload | engEn | xchg | engRxst | engTxld =>
      simp only [exec_statRd, exec_txPut, exec_engPreload, exec_engEn, exec_xchg, exec_engRxst, exec_engTxld,
        execStatRd, execTxPut, execEngPreload, execEngEn, execXchg, execEngRxst, execEngTxld]
      split_ifs <;> rfl
    | rxGet | rst => rfl
    | cntCfg | cntRd | irqEn | outSet | edge | utlSvc => cases hi
  frame h hi := by
    obtain ⟨-, heng, hparams, -⟩ := operationsStayInTheirHalf _ _ _ h
    exact Prod.ext hparams (heng (.inl hi))

section
variable {α : Type} {touches : Instr → Bool} {view : State → α} {i : Instr} {is : List Instr} {s s' t : State}

/-- A step of the half exists wherever the half is the same, and ends in the same half. -/
theorem IsHalf.exec_next (hv : IsHalf touches view) (hi : touches i = true) (hs : view s' = view s)
    (h : exec i s = .next t) : ∃ t', exec i s' = .next t' ∧ view t' = view t :=
  viewAfter_eq_some_iff.mp ((hv.acts hi hs).trans (by rw [h]; rfl))

/-- A trace is, for the half, the trace of the half's own steps. -/
theorem IsHalf.execAll_filter (hv : IsHalf touches view) (hs : view s' = view s) (h : execAll is s = .next t) :
    ∃ u, execAll (is.filter touches) s' = .next u ∧ view u = view t := by
  induction is generalizing s s' with
  | nil =>
    cases h
    exact ⟨s', rfl, hs⟩
  | cons i is ih =>
    obtain ⟨r, hr, hrest⟩ := execAll_cons_next.mp h
    cases hi : touches i
    · rw [List.filter_cons_of_neg (by simp [hi])]
      exact ih (hs.trans (hv.frame hr hi).symm) hrest
    · obtain ⟨r', hr', hview⟩ := hv.exec_next hi hs hr
      obtain ⟨u, hu, hut⟩ := ih hview hrest
      rw [List.filter_cons_of_pos hi]
      exact ⟨u, execAll_cons_next.mpr ⟨r', hr', hu⟩, hut⟩

/-- The first step of a trace of the half, taken in a state with the same half: it exists there too. -/
theorem IsHalf.exists_exec_next_of_filter (hv : IsHalf touches view) (hi : touches i = true) (hs : view s' = view s)
    (h : execAll ((i :: is).filter touches) s' = .next t) : ∃ r, exec i s = .next r := by
  rw [List.filter_cons_of_pos hi] at h
  obtain ⟨r', hr', -⟩ := execAll_cons_next.mp h
  obtain ⟨r, hr, -⟩ := hv.exec_next hi hs.symm hr'
  exact ⟨r, hr⟩

/-- What is left of a trace of the half after a step of the whole core. -/
theorem IsHalf.execAll_filter_tail {r : State} (hv : IsHalf touches view) (hs : view s' = view s)
    (hr : exec i s = .next r) (h : execAll ((i :: is).filter touches) s' = .next t) :
    ∃ r', view r' = view r ∧ execAll (is.filter touches) r' = .next t := by
  cases hi : touches i
  · rw [List.filter_cons_of_neg (by simp [hi])] at h
    exact ⟨s', hs.trans (hv.frame hr hi).symm, h⟩
  · rw [List.filter_cons_of_pos hi] at h
    obtain ⟨r', hr', hrest⟩ := execAll_cons_next.mp h
    obtain ⟨r₁, hr₁, hview⟩ := hv.exec_next hi hs.symm hr'
    obtain rfl : r₁ = r := Host.Outcome.next.inj (hr₁.symm.trans hr)
    exact ⟨r', hview.symm, hrest⟩

end

/-- Every operation touches a half. -/
theorem touchesCounter_or_touchesEngine (i : Instr) : touchesCounter i = true ∨ touchesEngine i = true := by
  cases i <;> simp [touchesCounter, touchesEngine]

/-- Two traces, one of each half's steps, combine into one trace, whatever each run makes of the other half. -/
theorem execAll_of_halves {is : List Instr} {s sc se u v : State} (hc : sc.cnt = s.cnt)
    (he : se.engineView = s.engineView) (hu : execAll (is.filter touchesCounter) sc = .next u)
    (hv : execAll (is.filter touchesEngine) se = .next v) :
    ∃ t, execAll is s = .next t ∧ t.cnt = u.cnt ∧ t.engineView = v.engineView := by
  induction is generalizing s sc se with
  | nil =>
    cases hu
    cases hv
    exact ⟨s, rfl, hc.symm, he.symm⟩
  | cons i is ih =>
    obtain ⟨r, hr⟩ : ∃ r, exec i s = .next r := by
      obtain hi | hi := touchesCounter_or_touchesEngine i
      · exact counterHalf_isHalf.exists_exec_next_of_filter hi hc hu
      · exact engineHalf_isHalf.exists_exec_next_of_filter hi he hv
    obtain ⟨rc, hrc, hu'⟩ := counterHalf_isHalf.execAll_filter_tail hc hr hu
    obtain ⟨re, hre, hv'⟩ := engineHalf_isHalf.execAll_filter_tail he hr hv
    obtain ⟨t, ht, hview⟩ := ih hrc hre hu' hv'
    exact ⟨t, execAll_cons_next.mpr ⟨r, hr, ht⟩, hview⟩

/-- Settles O35: each half runs its own steps as the core does, and two such runs combine step by step. -/
theorem halvesAreIndependentMachines : Obligations.HalvesAreIndependentMachines := by
  intro is s
  refine ⟨fun t h => ⟨counterHalf_isHalf.execAll_filter rfl h, ?_⟩, fun u v hu hv => ?_⟩
  · obtain ⟨v, hv, hview⟩ := engineHalf_isHalf.execAll_filter rfl h
    exact ⟨v, hv, congrArg Prod.snd hview⟩
  · obtain ⟨t, ht, hcnt, hview⟩ := execAll_of_halves rfl rfl hu hv
    exact ⟨t, ht, hcnt, congrArg Prod.snd hview⟩

end Sys2Proof.Machine
end

section
/-! PROOFS. Weak fairness on infinite traces (60_exceptions R292): what a trace keeps it keeps for ever, so a guard that nothing
takes away is served. -/

namespace Sys2Proof.Machine

variable {ops : Nat → Instr} {states : Nat → State} {n m : Nat}

/-- What every operation of a stretch keeps holds along the stretch. -/
theorem IsTrace.keeps {P : State → Prop} (htr : IsTrace ops states) (hnm : n ≤ m) (hn : P (states n))
    (hstep : ∀ k, n ≤ k → k < m → ∀ s t, exec (ops k) s = .next t → P s → P t) : P (states m) := by
  induction m, hnm using Nat.le_induction with
  | base => exact hn
  | succ m hnm ih =>
    exact hstep m hnm (Nat.lt_succ_self m) _ _ (htr m)
      (ih fun k hk hkm => hstep k hk (Nat.lt_succ_of_lt hkm))

/-! The latch. -/

/-- A request stays until it is served or reset (41_toggle_latch R184). -/
theorem exec_next_keeps_irq {i : Instr} {s t : State} (h : exec i s = .next t) (hsvc : i ≠ .utlSvc) (hrst : i ≠ .rst)
    (hirq : s.cnt.irq = true) : t.cnt.irq = true := by
  obtain ⟨hp, hen⟩ := (utlGuard_iff s.cnt).mp hirq
  obtain ⟨-, -, hpending, henable, -⟩ := counterHalfWriters i s t h hrst
  refine (utlGuard_iff t.cnt).mpr ⟨by_contra fun hne => ?_, by_contra fun hne => ?_⟩
  · exact (hpending fun heq => hne (heq.trans hp)).elim (fun hw => hne hw.2) (fun hw => hsvc hw.1)
  · exact hne (henable fun heq => hne (heq.trans hen)).2

/-- Settles O54: if neither came, the request would stay for ever, and fairness would serve it. -/
theorem fairLatchServesEveryRequest : Obligations.FairLatchServesEveryRequest := by
  intro ops states htr hfair n hirq
  by_contra hnone
  push Not at hnone
  obtain ⟨m, hnm, hidle | hsvc⟩ := hfair n
  · have hm : (states m).cnt.irq = true := htr.keeps hnm hirq fun k hk _ _ _ hstep =>
      exec_next_keeps_irq hstep (hnone k hk).1 (hnone k hk).2
    exact absurd (hm.symm.trans hidle) (by decide)
  · exact (hnone m hnm).1 hsvc

/-! The sequencer. -/

theorem sequencerChoice_of_rxstGuard {e : EngineHalf} (h : rxstGuard e = true) : sequencerChoice e = some .engRxst :=
  if_pos h

theorem sequencerChoice_of_txldGuard {e : EngineHalf} (h : txldGuard e = true) : sequencerChoice e = some .engTxld := by
  have hrx : rxstGuard e = false := by
    simp [rxstGuard, ((txldGuard_iff e).mp h).1]
  simp [sequencerChoice, hrx, h]

/-- A step that SEQ wants for ever is taken. -/
theorem FairSequencer.takes {i : Instr} (hfair : FairSequencer ops states)
    (h : ∀ m, n ≤ m → sequencerChoice (states m).eng = some i) : ∃ m, n ≤ m ∧ ops m = i := by
  obtain ⟨m, hnm, hnone | htaken⟩ := hfair n
  · exact absurd (hnone.symm.trans (h m hnm)) nofun
  · exact ⟨m, hnm, Option.some.inj (htaken.symm.trans (h m hnm))⟩

/-- The engine is enabled and holds a received byte that is not yet stored. -/
structure EngineHalf.Received (e : EngineHalf) : Prop where
  full : e.rxFull = true
  enabled : e.engEn = true

section
variable {i : Instr} {s t : State}

/-- A received byte waits until it is stored or reset, and with it the engine stays enabled. -/
theorem exec_next_keeps_received (h : exec i s = .next t) (hst : i ≠ .engRxst) (hrst : i ≠ .rst)
    (hs : s.eng.Received) : t.eng.Received := by
  obtain ⟨hf, hn⟩ := hs
  obtain ⟨-, -, -, -, -, -, -, -, hfull, -, hen, -⟩ := engineHalfWriters i s t h hrst
  refine ⟨by_contra fun hne => ?_, by_contra fun hne => ?_⟩
  · exact (hfull fun heq => hne (heq.trans hf)).elim (fun ⟨_, _, hw⟩ => hne hw) (fun hw => hst hw.1)
  · exact hne (hen fun heq => hne (heq.trans hn)).2

/-- The byte received and the cell it is to be stored in stay until the store, the next exchange or `RST`. -/
theorem exec_next_keeps_rxSlot_rxWr (h : exec i s = .next t) (hst : i ≠ .engRxst) (hrst : i ≠ .rst)
    (hx : ∀ b, i ≠ .xchg b) : t.eng.rxSlot = s.eng.rxSlot ∧ t.eng.rxWr = s.eng.rxWr := by
  obtain ⟨-, -, hwr, -, -, -, hslot, -⟩ := engineHalfWriters i s t h hrst
  exact ⟨by_contra fun hne => (hslot hne).elim hx, by_contra fun hne => hst (hwr hne)⟩

/-- In WAIT_RX the sequencer stays until the store or `RST`. -/
theorem exec_next_keeps_waitRx (h : exec i s = .next t) (hst : i ≠ .engRxst) (hrst : i ≠ .rst)
    (hp : s.eng.engPhase = .waitRx) : t.eng.engPhase = .waitRx := by
  obtain ⟨hi, -⟩ | ⟨-, -, hpost⟩ | ⟨-, -, hsame⟩ := exec_next_engPhase_cases h hrst
  · exact absurd hi hst
  · exact hpost
  · exact hsame.trans hp

/-- A free transmit slot of an enabled engine stays free until the load or `RST`: the pre-load is refused. -/
theorem exec_next_keeps_txFree (h : exec i s = .next t) (hld : i ≠ .engTxld) (hrst : i ≠ .rst)
    (hn : s.eng.engEn = true) (hf : s.eng.txFull = false) : t.eng.txFull = false := by
  by_cases hpre : i = .engPreload
  · subst hpre
    obtain rfl := Host.Outcome.next.inj ((execEngPreload_of_enabled hn).symm.trans h)
    exact hf
  obtain ⟨-, -, -, -, -, -, -, -, -, hfull, -⟩ := engineHalfWriters i s t h hrst
  by_contra hne
  obtain ⟨_, -, hw⟩ | ⟨hi | hi, -⟩ := hfull fun heq => hne (heq.trans hf)
  · exact hne hw
  · exact hpre hi
  · exact hld hi

end

/-- Neither the store nor `RST` comes from here on. -/
def NeverStores (ops : Nat → Instr) (n : Nat) : Prop := ∀ k, n ≤ k → ops k ≠ .engRxst ∧ ops k ≠ .rst

section
variable (htr : IsTrace ops states) (hfair : FairSequencer ops states)
  (hr : (states n).eng.Received) (hnever : NeverStores ops n)
include htr hr hnever

theorem NeverStores.received (hnm : n ≤ m) : (states m).eng.Received :=
  htr.keeps (P := fun s => s.eng.Received) hnm hr fun k hk _ _ _ hstep =>
    exec_next_keeps_received hstep (hnever k hk).1 (hnever k hk).2

include hfair

/-- A received byte that is never stored finds the sequencer in WAIT_TX: in WAIT_RX it would stay there, and fairness would
store the byte. -/
theorem NeverStores.waitTx (hnm : n ≤ m) : (states m).eng.engPhase = .waitTx := by
  cases hp : (states m).eng.engPhase with
  | waitTx => rfl
  | waitRx =>
    obtain ⟨k, hmk, hk⟩ := hfair.takes (n := m) (i := .engRxst) fun k hmk => by
      have hphase : (states k).eng.engPhase = .waitRx :=
        htr.keeps (P := fun s => s.eng.engPhase = .waitRx) hmk hp fun j hj _ _ _ hstep =>
          exec_next_keeps_waitRx hstep (hnever j (hnm.trans hj)).1 (hnever j (hnm.trans hj)).2
      exact sequencerChoice_of_rxstGuard
        ((rxstGuard_iff _).mpr ⟨hphase, (hnever.received htr hr (hnm.trans hmk)).full⟩)
    exact absurd hk (hnever k (hnm.trans hmk)).1

/-- A received byte that is never stored shuts out the load, which would end in WAIT_RX. -/
theorem NeverStores.not_load (hnm : n ≤ m) : ops m ≠ .engTxld := by
  intro hld
  have hstep := htr m
  rw [hld] at hstep
  obtain ⟨-, hpost⟩ := execEngTxld_next hstep
  have hphase := hnever.waitTx htr hfair hr (hnm.trans (Nat.le_succ m))
  rw [hpost] at hphase
  cases hphase

/-- A received byte that is never stored finds the transmit slot full: a free one would stay free, and fairness would load
it. -/
theorem NeverStores.txFull (hnm : n ≤ m) : (states m).eng.txFull = true := by
  by_contra hfree
  obtain ⟨k, hmk, hk⟩ := hfair.takes (n := m) (i := .engTxld) fun k hmk => by
    have hslot : (states k).eng.Received ∧ (states k).eng.txFull = false := by
      refine htr.keeps (P := fun s => s.eng.Received ∧ s.eng.txFull = false) hmk
        ⟨hnever.received htr hr hnm, by simpa using hfree⟩ fun j hj _ s t hstep ⟨hrec, hslot⟩ => ?_
      obtain ⟨hst, hrst⟩ := hnever j (hnm.trans hj)
      exact ⟨exec_next_keeps_received hstep hst hrst hrec,
        exec_next_keeps_txFree hstep (hnever.not_load htr hfair hr (hnm.trans hj)) hrst hrec.enabled hslot⟩
    exact sequencerChoice_of_txldGuard
      ((txldGuard_iff _).mpr ⟨hnever.waitTx htr hfair hr (hnm.trans hmk), hslot.2⟩)
  exact hnever.not_load htr hfair hr (hnm.trans hmk) hk

/-- A received byte that is never stored is met by no exchange, which would free the transmit slot. -/
theorem NeverStores.not_xchg (hnm : n ≤ m) (b : Byte) : ops m ≠ .xchg b := by
  intro hx
  have hstep := htr m
  rw [hx] at hstep
  obtain ⟨-, hpost⟩ | ⟨hdisabled, -⟩ := execXchg_next hstep
  · have hfull := hnever.txFull htr hfair hr (hnm.trans (Nat.le_succ m))
    rw [hpost] at hfull
    cases hfull
  · exact absurd (hdisabled.symm.trans (hnever.received htr hr hnm).enabled) (by decide)

end

/-- The first `ENG.RXST` stores the byte that stood in the slot, if no exchange came between. -/
theorem IsTrace.first_store_stores_received (htr : IsTrace ops states) (hnm : n ≤ m)
    (hquiet : ∀ k, n ≤ k → k < m → ops k ≠ .engRxst ∧ ops k ≠ .rst) (hst : ops m = .engRxst)
    (hx : ∀ k b, n ≤ k → k < m → ops k ≠ .xchg b) :
    (states (m + 1)).eng.memRead .rx (states n).eng.rxWr = (states n).eng.rxSlot := by
  obtain ⟨hslot, hwr⟩ : (states m).eng.rxSlot = (states n).eng.rxSlot ∧ (states m).eng.rxWr = (states n).eng.rxWr :=
    htr.keeps (P := fun s => s.eng.rxSlot = (states n).eng.rxSlot ∧ s.eng.rxWr = (states n).eng.rxWr) hnm
      ⟨rfl, rfl⟩ fun k hk hkm s t hstep ⟨hslot, hwr⟩ => by
        obtain ⟨hst, hrst⟩ := hquiet k hk hkm
        obtain ⟨hslot', hwr'⟩ := exec_next_keeps_rxSlot_rxWr hstep hst hrst (fun b => hx k b hk hkm)
        exact ⟨hslot'.trans hslot, hwr'.trans hwr⟩
  have hstep := htr m
  rw [hst] at hstep
  obtain ⟨-, hpost⟩ := execEngRxst_next hstep
  rw [hpost, ← hslot, ← hwr]
  exact ((states m).eng.memRead_storeRx (states m).params.cap (states m).eng.rxWr).trans (if_pos rfl)

/-- Settles O55: the first `ENG.RXST` or `RST`, or neither for ever; then the sequencer waits in WAIT_TX for a master that has
stopped. -/
theorem fairSequencerTakesEveryReceive : Obligations.FairSequencerTakesEveryReceive := by
  intro ops states htr hfair n hinv hfull
  by_cases hstop : ∃ m, n ≤ m ∧ (ops m = .engRxst ∨ ops m = .rst)
  · obtain ⟨hnm, hm⟩ := Nat.find_spec hstop
    have hquiet (k : Nat) (hk : n ≤ k) (hkm : k < Nat.find hstop) : ops k ≠ .engRxst ∧ ops k ≠ .rst :=
      not_or.mp fun hor => Nat.find_min hstop hkm ⟨hk, hor⟩
    refine .inl ⟨Nat.find hstop, hnm, hquiet, ?_⟩
    obtain hst | hrst := hm
    · exact .inr ⟨hst, htr.first_store_stores_received hnm hquiet hst⟩
    · exact .inl hrst
  · have hnever : NeverStores ops n := fun k hk => not_or.mp fun hor => hstop ⟨k, hk, hor⟩
    have hr : (states n).eng.Received := ⟨hfull, hinv.engine.full_enabled hfull⟩
    exact .inr fun m hnm =>
      ⟨hnever.waitTx htr hfair hr hnm, hnever.txFull htr hfair hr hnm, hnever.not_xchg htr hfair hr hnm⟩

end Sys2Proof.Machine
end

section
/-! PROOFS. Refused commands (60_exceptions R270, R271), and a service with an underflow in both orders (R283). -/

namespace Sys2Proof.Machine

/-! The refusals. -/

/-- What an operation makes of the state, by the status it answers. -/
inductive Replied (i : Instr) (s : State) : State → Prop where
  | ok (d : Half) (t : State) : Replied i s (respond .ok d t)
  | refused (st : Status) : Replied i s (respond st 0 s)
  | rangeError {top init : Half} {dir : Direction} {osr : Byte} (hi : i = .cntCfg top init dir osr) :
      Replied i s (respond .cfgRange 0 { s with cnt := { s.cnt with cfgErr := true } })
  | unanswered {t : State} (ht : ∀ w, t.output ≠ .response w) : Replied i s t

theorem exec_next_replied {i : Instr} {s t : State} (h : exec i s = .next t) : Replied i s t := by
  cases i with
  | cntCfg top init dir osr =>
    obtain ⟨-, rfl⟩ | ⟨-, -, -, rfl⟩ | ⟨-, -, -, rfl⟩ := execCntCfg_next h
    · exact .refused _
    · exact .ok _ _
    · exact .rangeError rfl
  | cntRd => obtain ⟨-, rfl⟩ | ⟨-, rfl⟩ := execCntRd_next h <;> exact .ok _ _
  | irqEn => obtain rfl := execIrqEn_next h; exact .ok _ _
  | outSet lvl =>
    obtain ⟨-, rfl⟩ | ⟨-, rfl⟩ := execOutSet_next h
    · exact .refused _
    · exact .ok _ _
  | statRd => obtain ⟨-, rfl⟩ | ⟨-, rfl⟩ := execStatRd_next h <;> exact .ok _ _
  | txPut b =>
    obtain ⟨-, rfl⟩ | ⟨-, rfl⟩ := execTxPut_next h
    · exact .refused _
    · exact .ok _ _
  | rxGet => obtain rfl := execRxGet_next h; exact .ok _ _
  | engPreload =>
    obtain ⟨-, rfl⟩ | ⟨-, rfl⟩ := execEngPreload_next h
    · exact .refused _
    · exact .ok _ _
  | engEn =>
    obtain ⟨-, rfl⟩ | ⟨-, rfl⟩ := execEngEn_next h
    · exact .refused _
    · exact .ok _ _
  | xchg m =>
    obtain ⟨v, hv⟩ := (whoAnswersWhat _ s t h).2.1 rfl
    exact .unanswered fun w => by simp [hv]
  | edge | rst | utlSvc | engRxst | engTxld =>
    have hsilent := (whoAnswersWhat _ s t h).2.2 (by decide) (by decide)
    exact .unanswered fun w => by simp [hsilent]

/-- Settles O31: the answers with a status other than `OK` are the refusals and the range error. -/
theorem refusedCommandChangesNothing : Obligations.RefusedCommandChangesNothing := by
  intro i s t w h hw hstatus
  cases exec_next_replied h with
  | ok d u =>
    obtain rfl := Output.response.inj hw
    exact absurd (responseWord_status .ok d) hstatus
  | refused st =>
    obtain rfl := Output.response.inj hw
    exact .inl rfl
  | rangeError hi =>
    obtain rfl := Output.response.inj hw
    exact .inr ⟨by decide, ⟨_, _, _, _, hi⟩, rfl⟩
  | unanswered ht => exact absurd hw (ht w)

/-! The two orders of a service and an underflow. -/

/-- A service leaves alone what makes the next edge underflow, so the two steps commute but for the flag. -/
theorem CounterHalf.rawEdge_takeUnderflowService_of_underflowDue {c : CounterHalf} (h : c.underflowDue = true) :
    c.takeUnderflowService.rawEdge = { c.rawEdge.takeUnderflowService with ufPending := true } := by
  have hdue : c.takeUnderflowService.underflowDue = true := h
  rw [CounterHalf.rawEdge_of_underflowDue hdue, CounterHalf.rawEdge_of_underflowDue h]
  rfl

/-- Settles O39: the edge underflows in both orders, and the flag is as the later step writes it. -/
theorem serviceThenUnderflowKeepsTheNewRequest : Obligations.ServiceThenUnderflowKeepsTheNewRequest := by
  intro s hirq hdue
  obtain ⟨hp, hen⟩ := (utlGuard_iff s.cnt).mp hirq
  have hcomm := CounterHalf.rawEdge_takeUnderflowService_of_underflowDue hdue
  refine ⟨silent { s with cnt := s.cnt.takeUnderflowService.rawEdge },
    silent { s with cnt := s.cnt.rawEdge.takeUnderflowService }, ?_, ?_, ?_, ?_, rfl, ?_, ?_⟩
  · exact execAll_cons_next.mpr ⟨_, execUtlSvc_of_request hp hen, rfl⟩
  · refine execAll_cons_next.mpr ⟨_, rfl, execAll_cons_next.mpr ⟨_, execUtlSvc_of_request ?_ ?_, rfl⟩⟩
    · simp [hdue]
    · simp [hen]
  · simp [hcomm]
  · simp [hcomm, CounterHalf.irq, hen]
  · simp [hcomm]
  · rw [hcomm]
    rfl

end Sys2Proof.Machine
end

section
/-! PROOFS. The distance between underflows (70_reset_and_hazards R332): an underflow starts a full count, and the underflows of
a full count come one to every `(cnt_top + 1) * osr` raw edges. -/

namespace Sys2Proof.Machine

/-- A counter that counts down from its ceiling at the start of a pulse. -/
structure CounterHalf.AtFullCount (c : CounterHalf) : Prop where
  armed : c.configured = true
  down : c.cntDir = .down
  edges : c.edgeCnt = 0
  value : c.cntValue = c.cntTop

theorem CounterHalf.rawEdge_atFullCount {c : CounterHalf} (h : c.underflowDue = true) : c.rawEdge.AtFullCount := by
  obtain ⟨hc, -, hd, -⟩ := c.underflowDue_iff.mp h
  rw [CounterHalf.rawEdge_of_underflowDue h]
  exact ⟨hc, hd, rfl, rfl⟩

/-- The closed form of R158 where the value starts at the ceiling. -/
theorem underflowCount_edges_of_atFullCount {s : State} (hs : Inv s) (hfull : s.cnt.AtFullCount) (n : Nat) :
    underflowCount (Instr.edges n) s = n / ((s.cnt.cntTop.toNat + 1) * s.cnt.osr.toNat) := by
  obtain ⟨t, -, -, hdown, -⟩ := countingHasItsClosedForms s n hs hfull.armed hfull.edges
  obtain ⟨-, hcount, -⟩ := hdown hfull.down
  rw [hcount, hfull.value, Nat.add_sub_cancel, Nat.div_div_eq_div_mul, Nat.mul_comm]

/-- Settles O52: the edge that underflows leaves a full count, whose underflows are the quotient by its length. -/
theorem nextUnderflowComesAfterAFullCount : Obligations.NextUnderflowComesAfterAFullCount := by
  intro s t n hs hdue h hn
  have ht : Inv t := everyInstructionKeepsTheInvariant .edge s t hs h
  obtain rfl := execEdge_next h
  have hcount := underflowCount_edges_of_atFullCount ht (CounterHalf.rawEdge_atFullCount hdue)
  simp only [silent_cnt, CounterHalf.rawEdge_cntTop, CounterHalf.rawEdge_osr] at hcount
  refine ⟨(hcount n).trans (Nat.div_eq_of_lt hn), fun hlast => ?_⟩
  rw [hcount, ← hlast, Nat.div_self n.succ_pos]

end Sys2Proof.Machine
end

section
/-! PROOFS. A schedule of words is the trace it spells (20_memory R79, R80; log 1). -/

namespace Sys2Proof.Machine

variable {i : Instr} {s t : State}

/-- An operation takes its step whatever words wait behind it. -/
theorem exec_next_with_inputs (h : exec i s = .next t) (q : List Arrival) :
    exec i { s with inputs := q } = .next { t with inputs := q } := by
  rw [exec_inputs, h]

theorem step_of_decoded {a : Arrival} {rest : List Arrival} (hq : s.inputs = a :: rest) (hd : decode a.word = .ok i)
    (hw : i.wellFormed a.port = true) : step s = exec i { s with inputs := rest } := by
  rw [step_of_inputs hq, deliver, verdict_run hd hw]

theorem wellFormed_port (i : Instr) : i.wellFormed i.port = true := beq_self_eq_true i.port

/-- The word of an operation, on the port of its issuer, is taken as that operation. -/
theorem step_of_arrival {rest : List Arrival} (hq : s.inputs = i.arrival :: rest) :
    step s = exec i { s with inputs := rest } :=
  step_of_decoded hq (decodeOfEncodeIsTheInstruction i) (wellFormed_port i)

/-- Settles O9, by induction on the schedule: the first step runs the first operation, which neither reads nor changes the
words that wait, so the rest of the schedule starts from the state it leaves. -/
theorem stepsOfAScheduleAreItsTrace : Obligations.StepsOfAScheduleAreItsTrace := by
  intro is
  induction is with
  | nil =>
    rintro s t rest rfl h
    cases h
    rfl
  | cons i is ih =>
    intro s t rest hq h
    obtain ⟨u, hu, hrest⟩ := execAll_cons_next.mp h
    have hstep : step s = .next { u with inputs := is.map Instr.arrival ++ rest } :=
      (step_of_arrival hq).trans (exec_next_with_inputs hu _)
    have hwait : u.inputs = [] := (exec_next_keeps_surroundings hu).2.1
    have hsame : { u with inputs := [] } = u := by rw [← hwait]
    rw [List.length_cons, core_run_succ_next _ hstep]
    exact ih _ t rest rfl (hsame ▸ hrest)

/-- Settles O6: the arrival's verdict is to run what its word decodes to. -/
theorem stepRunsTheDecodedInstruction : Obligations.StepRunsTheDecodedInstruction :=
  fun _ _ _ _ => step_of_decoded

end Sys2Proof.Machine
end

section
/-! PROOFS. The byte order on a transport (20_memory R74; log 21): a word is the union of its bytes, each in its place. -/

namespace Sys2Proof

/-- A byte of a word put back in its place is the word there and zero elsewhere. -/
theorem getLsbD_place_byte {n : Nat} (w : BitVec n) (k i : Nat) :
    (place n k (w.extractLsb' k 8)).getLsbD i = (decide (k ≤ i ∧ i < k + 8) && w.getLsbD i) := by
  rw [getLsbD_place, BitVec.getLsbD_extractLsb']
  by_cases hk : k ≤ i ∧ i < k + 8
  · by_cases hi : i < n
    · simp [hk, hi, show i - k < 8 by omega, show k + (i - k) = i by omega]
    · simp [hi, BitVec.getLsbD_of_ge w i (by omega)]
  · by_cases hki : k ≤ i
    · simp [hk, show ¬ i - k < 8 by omega]
    · simp [hki]

theorem wordOfBytes_bytesOfWord (w : OpWord) :
    wordOfBytes (w.extractLsb' 0 8) (w.extractLsb' 8 8) (w.extractLsb' 16 8) (w.extractLsb' 24 8)
      (w.extractLsb' 32 8) (w.extractLsb' 40 8) (w.extractLsb' 48 8) (w.extractLsb' 56 8) = w := by
  refine BitVec.eq_of_getLsbD_eq fun i hi => ?_
  simp only [wordOfBytes, BitVec.getLsbD_or, getLsbD_place_byte, ← Bool.and_or_distrib_right, ← Bool.decide_or]
  rw [decide_eq_true (by omega), Bool.true_and]

theorem responseOfBytes_bytesOfResponse (r : RspWord) :
    responseOfBytes (r.extractLsb' 0 8) (r.extractLsb' 8 8) (r.extractLsb' 16 8) (r.extractLsb' 24 8) = r := by
  refine BitVec.eq_of_getLsbD_eq fun i hi => ?_
  simp only [responseOfBytes, BitVec.getLsbD_or, getLsbD_place_byte, ← Bool.and_or_distrib_right, ← Bool.decide_or]
  rw [decide_eq_true (by omega), Bool.true_and]

theorem decodeBytes_bytesOfWord (w : OpWord) (rest : List Byte) :
    decodeBytes (bytesOfWord w ++ rest) = (decode w).map (fun i => (i, rest)) :=
  congrArg (fun v => (decode v).map (fun i => (i, rest))) (wordOfBytes_bytesOfWord w)

theorem readResponse_bytesOfResponse (r : RspWord) (rest : List Byte) :
    readResponse (bytesOfResponse r ++ rest) = .ok (r, rest) :=
  congrArg (fun v => Except.ok (v, rest)) (responseOfBytes_bytesOfResponse r)

/-- Fewer than eight bytes are no operation word. -/
theorem decodeBytes_short {bs : List Byte} (h : bs.length < 8) : decodeBytes bs = .error .truncated := by
  unfold decodeBytes
  split
  next => simp only [List.length_cons] at h; omega
  next => rfl

theorem getElem?_bytesOfWord (w : OpWord) {k : Nat} (hk : k < 8) :
    (bytesOfWord w)[k]? = some (w.extractLsb' (8 * k) 8) := by
  interval_cases k <;> rfl

theorem getElem?_bytesOfResponse (r : RspWord) {k : Nat} (hk : k < 4) :
    (bytesOfResponse r)[k]? = some (r.extractLsb' (8 * k) 8) := by
  interval_cases k <;> rfl

/-- Settles O5: the bytes rebuild the word, and the word of an operation decodes to it. -/
theorem transportBytesRoundTrip : Obligations.TransportBytesRoundTrip := by
  refine ⟨fun i rest => ?_, fun i k => getElem?_bytesOfWord (encode i), fun _ => decodeBytes_short,
    fun r k => getElem?_bytesOfResponse r, length_bytesOfResponse, readResponse_bytesOfResponse,
    fun _ => readResponse_short⟩
  rw [encodeBytes, decodeBytes_bytesOfWord, decodeOfEncodeIsTheInstruction i]
  rfl

end Sys2Proof
end

section
/-! PROOFS. The core left alone (60_exceptions R290, R292; log 2): each internal step has a true guard and takes one from the
steps still due, of which there are at most three. -/

namespace Sys2Proof.Machine

/-- How many steps the sequencer takes before it waits for the next exchange (42_duplex_engine R216 to R219). -/
def EngineHalf.stepsDue (e : EngineHalf) : Nat :=
  match e.engPhase with
  | .waitRx => if e.rxFull then 1 + (!e.txFull).toNat else 0
  | .waitTx => if e.txFull then 0 else 1 + e.rxFull.toNat

/-- How many internal steps the core takes before it waits. -/
def State.stepsDue (s : State) : Nat := (utlGuard s.cnt).toNat + s.eng.stepsDue

section
variable {e : EngineHalf} {s : State}

theorem EngineHalf.stepsDue_of_waitRx (hp : e.engPhase = .waitRx) :
    e.stepsDue = if e.rxFull then 1 + (!e.txFull).toNat else 0 := by
  rw [EngineHalf.stepsDue, hp]

theorem EngineHalf.stepsDue_of_waitTx (hp : e.engPhase = .waitTx) :
    e.stepsDue = if e.txFull then 0 else 1 + e.rxFull.toNat := by
  rw [EngineHalf.stepsDue, hp]

theorem EngineHalf.stepsDue_le_two (e : EngineHalf) : e.stepsDue ≤ 2 := by
  cases hp : e.engPhase
  · rw [EngineHalf.stepsDue_of_waitRx hp]
    cases e.rxFull <;> cases e.txFull <;> decide
  · rw [EngineHalf.stepsDue_of_waitTx hp]
    cases e.rxFull <;> cases e.txFull <;> decide

theorem State.stepsDue_le_three (s : State) : s.stepsDue ≤ 3 :=
  Nat.add_le_add (Bool.toNat_le _) s.eng.stepsDue_le_two

theorem EngineHalf.stepsDue_eq_zero_iff : e.stepsDue = 0 ↔ sequencerChoice e = none := by
  rw [sequencerChoice_none_iff]
  cases hp : e.engPhase
  · rw [EngineHalf.stepsDue_of_waitRx hp]
    cases hf : e.rxFull <;> simp [rxstGuard, txldGuard, hp, hf]
  · rw [EngineHalf.stepsDue_of_waitTx hp]
    cases hf : e.txFull <;> simp [rxstGuard, txldGuard, hp, hf]

theorem State.stepsDue_eq_zero_iff : s.stepsDue = 0 ↔ utlGuard s.cnt = false ∧ sequencerChoice s.eng = none := by
  rw [State.stepsDue, Nat.add_eq_zero_iff, Bool.toNat_eq_zero, EngineHalf.stepsDue_eq_zero_iff]

theorem EngineHalf.stepsDue_store (cap : Nat) (h : rxstGuard e = true) :
    EngineHalf.stepsDue { e.storeRx cap with rxFull := false, engPhase := .waitTx } + 1 = e.stepsDue := by
  obtain ⟨hp, hf⟩ := (rxstGuard_iff e).mp h
  rw [EngineHalf.stepsDue_of_waitRx hp, EngineHalf.stepsDue_of_waitTx rfl]
  cases ht : e.txFull <;> simp [ht, hf]

theorem EngineHalf.stepsDue_load (cap : Nat) (h : txldGuard e = true) :
    EngineHalf.stepsDue { e.loadTx cap with engPhase := .waitRx } + 1 = e.stepsDue := by
  obtain ⟨hp, ht⟩ := (txldGuard_iff e).mp h
  rw [EngineHalf.stepsDue_of_waitTx hp, EngineHalf.stepsDue_of_waitRx rfl]
  cases hf : e.rxFull <;> simp [ht, hf]

/-- The level the output line has once the request, if there is one, is served. -/
def CounterHalf.servedLevel (c : CounterHalf) : Bool := xor c.outLevel c.irq

theorem CounterHalf.servedLevel_takeUnderflowService {c : CounterHalf} (h : utlGuard c = true) :
    c.takeUnderflowService.servedLevel = c.servedLevel := by
  have hrequest : c.irq = true := h
  have hserved : c.takeUnderflowService.irq = false := rfl
  simp [CounterHalf.servedLevel, hrequest, hserved]

/-- A step of the core left alone completes, takes one from the steps due, and keeps the level the output line is to have. -/
theorem step_alone_progress (hq : s.inputs = []) :
    ∃ t, step s = .next t ∧ t.inputs = [] ∧ t.stepsDue = s.stepsDue - 1 ∧
      t.cnt.servedLevel = s.cnt.servedLevel := by
  obtain ⟨hg, h⟩ | ⟨hg, h⟩ | ⟨hg, h⟩ | ⟨hu, hs, h⟩ := step_alone hq
  · refine ⟨_, h, hq, ?_, CounterHalf.servedLevel_takeUnderflowService hg⟩
    have hserved : utlGuard s.cnt.takeUnderflowService = false := rfl
    simp [State.stepsDue, hg, hserved]
  · refine ⟨_, h, hq, ?_, rfl⟩
    simp [State.stepsDue, ← EngineHalf.stepsDue_store s.params.cap hg, ← Nat.add_assoc]
  · refine ⟨_, h, hq, ?_, rfl⟩
    simp [State.stepsDue, ← EngineHalf.stepsDue_load s.params.cap hg, ← Nat.add_assoc]
  · have hdue : s.stepsDue = 0 := State.stepsDue_eq_zero_iff.mpr ⟨hu, hs⟩
    exact ⟨_, h, hq, by rw [hdue]; exact hdue, rfl⟩

/-- A run of the core left alone completes, and each of its steps takes one from the steps due. -/
theorem core_run_alone (n : Nat) (hq : s.inputs = []) :
    ∃ t : State, core.run n s = .next t ∧ t.inputs = [] ∧ t.stepsDue = s.stepsDue - n ∧
      t.cnt.servedLevel = s.cnt.servedLevel := by
  induction n generalizing s with
  | zero => exact ⟨s, rfl, hq, rfl, rfl⟩
  | succ n ih =>
    obtain ⟨u, hstep, huq, hudue, hulevel⟩ := step_alone_progress hq
    obtain ⟨t, hrun, htq, htdue, htlevel⟩ := ih huq
    refine ⟨t, (core_run_succ_next n hstep).trans hrun, htq, ?_, htlevel.trans hulevel⟩
    rw [htdue, hudue, Nat.sub_sub, Nat.add_comm]

end

/-- Settles O11: three steps leave none due, and with no request left the output line has the level it was to have. -/
theorem coreLeftAloneSettlesInThreeSteps : Obligations.CoreLeftAloneSettlesInThreeSteps := by
  intro s hq
  obtain ⟨t, hrun, htq, hdue, hlevel⟩ := core_run_alone 3 hq
  rw [Nat.sub_eq_zero_of_le s.stepsDue_le_three, State.stepsDue_eq_zero_iff] at hdue
  obtain ⟨hutl, hseq⟩ := hdue
  have hirq : t.cnt.irq = false := hutl
  refine ⟨t, hrun, hutl, hseq, htq, ?_⟩
  rwa [CounterHalf.servedLevel, hirq, Bool.xor_false] at hlevel

/-- Settles O10: each kind of step with nothing waiting is what `exec` makes of the operation under its guard. -/
theorem coreMovesByItselfOnlyUnderAGuard : Obligations.CoreMovesByItselfOnlyUnderAGuard := by
  intro s hq
  obtain ⟨hg, h⟩ | ⟨hg, h⟩ | ⟨hg, h⟩ | ⟨hu, hs, h⟩ := step_alone hq
  · obtain ⟨hp, hen⟩ := (utlGuard_iff s.cnt).mp hg
    exact .inl ⟨hg, h.trans (execUtlSvc_of_request (s := { s with turn := s.turn + 1 }) hp hen).symm⟩
  · obtain ⟨hp, hf⟩ := (rxstGuard_iff s.eng).mp hg
    exact .inr (.inl ⟨hg, h.trans (execEngRxst_of_guard (s := { s with turn := s.turn + 1 }) hp hf).symm⟩)
  · obtain ⟨hp, hf⟩ := (txldGuard_iff s.eng).mp hg
    exact .inr (.inr (.inl ⟨hg, h.trans (execEngTxld_of_guard (s := { s with turn := s.turn + 1 }) hp hf).symm⟩))
  · obtain ⟨hr, ht⟩ := (sequencerChoice_none_iff s.eng).mp hs
    exact .inr (.inr (.inr ⟨hu, hr, ht, h⟩))

end Sys2Proof.Machine
end

section
/-! PROOFS. Where a step does not exist (93_implementation_defined U14, U15; log 5, log 11), and where it always does
(60_exceptions R270). -/

namespace Sys2Proof.Machine

variable {s : State}

theorem execUtlSvc_of_idle (h : utlGuard s.cnt = false) : execUtlSvc s = .fault .noUnderflowRequest :=
  if_neg (by simp [h])

theorem execEngRxst_of_blocked (h : rxstGuard s.eng = false) : execEngRxst s = .fault .receiveBlocked :=
  if_neg (by simp [h])

theorem execEngTxld_of_blocked (h : txldGuard s.eng = false) : execEngTxld s = .fault .transmitBlocked :=
  if_neg (by simp [h])

/-- Settles O8: the false guards, and a trace word that no row of the trace input selects. -/
theorem whatIsNoTraceStopsByName : Obligations.WhatIsNoTraceStopsByName := by
  intro s
  refine ⟨execUtlSvc_of_idle, execEngRxst_of_blocked, execEngTxld_of_blocked, fun w rest hq h => ?_⟩
  have hv : verdict ⟨.trace, w⟩ = rejected .trace := verdict_of_unselected fun r hr hp => h r hr (by simp [hp])
  simp only [step_of_inputs hq, deliver, hv, rejected]

/-- A state check completes when both its paths do. -/
theorem exists_next_ite {p : Prop} [Decidable p] {r r' : Result} (h : ∃ t, r = .next t) (h' : ∃ t, r' = .next t) :
    ∃ t, (if p then r else r') = .next t := by
  split
  · exact h
  · exact h'

/-- Settles O29: the paths of each operation of the host and of the environment; UTL and SEQ issue the others. -/
theorem commandsAndEventsAlwaysComplete : Obligations.CommandsAndEventsAlwaysComplete := by
  intro i s hutl hseq
  cases i with
  | cntCfg => exact exists_next_ite ⟨_, rfl⟩ (exists_next_ite ⟨_, rfl⟩ ⟨_, rfl⟩)
  | cntRd | outSet | statRd | txPut | engPreload | engEn | xchg => exact exists_next_ite ⟨_, rfl⟩ ⟨_, rfl⟩
  | irqEn | rxGet | edge | rst => exact ⟨_, rfl⟩
  | utlSvc => exact absurd rfl hutl
  | engRxst | engTxld => exact absurd rfl hseq

/-- Settles O28: under the guard the access of `ENG.TXLD`, and no next state without the guard. -/
theorem engTxldLoadsTheNextByte : Obligations.EngTxldLoadsTheNextByte := by
  intro s
  refine ⟨execEngTxld_of_guard, fun hno t h => ?_⟩
  obtain ⟨⟨hp, hf⟩, -⟩ := execEngTxld_next h
  simp [hp, hf] at hno

end Sys2Proof.Machine
end

section
/-! PROOFS. What `RST` leaves open, and the free values (10_state R60, R61; 00_scope R19; log 4). -/

namespace Sys2Proof.Machine

/-- The registers in which power-on and `RST` differ are unspecified while the counter is not configured. -/
theorem CounterHalf.known_afterRst_eq_reset (c : CounterHalf) : c.afterRst.known = CounterHalf.reset.known := by
  rw [CounterHalf.known_eq_known_iff]
  exact ⟨rfl, rfl, rfl, rfl, rfl, rfl, nofun⟩

/-- The slots in which power-on and `RST` differ hold no valid byte. -/
theorem EngineHalf.known_afterRst_eq_reset (cap : Nat) (e : EngineHalf) :
    (e.afterRst cap).known = (EngineHalf.reset cap).known := rfl

/-- Settles O24: half by half. -/
theorem powerOnIsTheResetEvent : Obligations.PowerOnIsTheResetEvent :=
  ⟨rfl, fun s => ⟨_, rfl, s.cnt.known_afterRst_eq_reset, s.eng.known_afterRst_eq_reset s.params.cap⟩⟩

theorem EngineHalf.misoByte_of_invalid {e : EngineHalf} (h : e.engEn = false ∨ e.txFull = false) :
    e.misoByte = Config.engineByte e.draws :=
  if_neg (by obtain h | h := h <;> simp [h])

/-- No cell is listed after `RST`, so each reads as the unspecified byte of the next filling (log 9). -/
theorem EngineHalf.memRead_afterRst (cap : Nat) (e : EngineHalf) (sp : Config.Space) (j : Nat) :
    (e.afterRst cap).memRead sp j = Config.unwrittenByte (e.fill + 1) sp j := by
  cases sp <;> rfl

theorem ofBit_eq_up_iff (b : Bool) : Direction.ofBit b = .up ↔ b = true := by
  rw [← Direction.toBit_iff, Direction.toBit_ofBit]

/-- Settles O25: the next state of each operation that draws, on the path where it draws. -/
theorem unspecifiedValuesAreFreshDraws : Obligations.UnspecifiedValuesAreFreshDraws := by
  intro s t
  refine ⟨fun hc h => ?_, fun hc h => ?_, fun m h => ?_, fun h => ?_⟩
  · obtain ⟨hconf, -⟩ | ⟨-, rfl⟩ := execCntRd_next h
    · simp [hc] at hconf
    · exact ⟨congrArg Output.response (responseWord_ok _), rfl⟩
  · obtain ⟨hconf, -⟩ | ⟨-, rfl⟩ := execStatRd_next h
    · simp [hc] at hconf
    · refine ⟨fun w hw => ?_, rfl⟩
      obtain rfl := Output.response.inj hw
      exact (responseWord_ok_getLsbD _ (by decide)).trans (statWord_getLsbD ..)
  · obtain ⟨hn, rfl⟩ | ⟨hn, rfl⟩ := execXchg_next h
    · refine ⟨fun hv => congrArg Output.miso (EngineHalf.misoByte_of_invalid hv), fun _ hr hp => ?_, ?_⟩
      · simp [hr, hp, EngineHalf.overrunByte]
      · simp [hn]
    · refine ⟨fun hv => congrArg Output.miso (EngineHalf.misoByte_of_invalid hv), fun hen => ?_, ?_⟩
      · simp [hn] at hen
      · simp [hn]
  · obtain rfl := execRst_next h
    exact ⟨rfl, rfl, ofBit_eq_up_iff _, rfl, rfl, rfl, rfl, rfl, rfl,
      s.eng.memRead_afterRst s.params.cap .rx, s.eng.memRead_afterRst s.params.cap .tx⟩

end Sys2Proof.Machine
end

section
/-! PROOFS. The remark of 42_duplex_engine R218 (log 13): an exchange between a store and its load frees the transmit slot early,
and the load that fills it again leaves the next load blocked. -/

namespace Sys2Proof.Machine

variable {s : State}

/-- A trace, put together from its first step and the rest. -/
theorem execAll_cons_of_next {i : Instr} {is : List Instr} {u t : State} (h : exec i s = .next u)
    (hrest : execAll is u = .next t) : execAll (i :: is) s = .next t :=
  execAll_cons_next.mpr ⟨u, h, hrest⟩

/-- From the start of a cycle, with a second exchange before the load: the load finds the slot free and the second store finds a
byte, so the sequencer comes back to WAIT_TX with the slot full. -/
theorem execAll_early_exchange (b c : Byte) (h : s.eng.Ready) :
    ∃ t, execAll [.xchg b, .engRxst, .xchg c, .engTxld, .engRxst] s = .next t ∧
      t.eng.engEn = true ∧ t.eng.engPhase = .waitTx ∧ t.eng.txFull = true := by
  have hrun : execAll [.xchg b, .engRxst, .xchg c, .engTxld, .engRxst] s = .next _ :=
    execAll_cons_of_next (execXchg_of_enabled h.enabled) <|
    execAll_cons_of_next (execEngRxst_of_guard h.phase rfl) <|
    execAll_cons_of_next (execXchg_of_enabled h.enabled) <|
    execAll_cons_of_next (execEngTxld_of_guard rfl rfl) <|
    execAll_cons_of_next (execEngRxst_of_guard rfl rfl) rfl
  exact ⟨_, hrun, h.enabled, rfl, rfl⟩

/-- An exchange frees the slot of an enabled engine, and then the load of WAIT_TX has its guard. -/
theorem execAll_exchange_load (b : Byte) (hn : s.eng.engEn = true) (hp : s.eng.engPhase = .waitTx) :
    ∃ t, execAll [.xchg b, .engTxld] s = .next t :=
  ⟨_, execAll_cons_of_next (execXchg_of_enabled hn) <| execAll_cons_of_next (execEngTxld_of_guard hp rfl) rfl⟩

/-- Settles O59: the start of R220, the early exchange, and the exchange that ends the wait. -/
theorem earlyExchangeCanBlockTheLoad : Obligations.EarlyExchangeCanBlockTheLoad := by
  intro a b c s
  obtain ⟨r, hstart, -, heng, -⟩ := execAll_start [a] s
  obtain ⟨t, hearly, hn, hp, ht⟩ := execAll_early_exchange b c (s := r) (heng ▸ s.eng.started_ready s.params.cap [a])
  have hblocked : txldGuard t.eng = false := by simp [txldGuard, ht]
  exact ⟨t, execAll_append_next.mpr ⟨r, hstart, hearly⟩, hp, ht, execEngTxld_of_blocked hblocked,
    execAll_exchange_load b hn hp⟩

end Sys2Proof.Machine
end
